-- ==== Sys2Proof/Word.lean ====
section
/-! DEFINITION. The bit-vector types of the block, one name for each kind of value that the spec treats as bits. -/

namespace Sys2Proof

/-- One byte on the bus, and an 8-bit event payload or report code (30_encoding.md R99, R104, R108). -/
abbrev Byte := BitVec 8

/-- One 16-bit register word (20_memory.md R73). -/
abbrev Word := BitVec 16

/-- A phase sample: bit 0 the level of phase line A, bit 1 the level of phase line B (30_encoding.md R91). -/
abbrev Phase := BitVec 2

/-- A row vector: bit r is row r of the selected column (30_encoding.md R94). `ROWS` is at most 32, since
`ROWS * COLS = 32` (R97); bits at and above `ROWS` are not rows. -/
abbrev RowVec := BitVec 32

/-- The LED output port, one bit for each of the 11 LEDs (10_state.md R47). -/
abbrev LedPort := BitVec 11

/-- A 4-bit event kind code (30_encoding.md R100). -/
abbrev Kind := BitVec 4

/-- The number of decoder channels: 0..9 and the VFO channel (40_quadrature.md R120). -/
abbrev numChan : Nat := 11

/-- A decoder channel: 0..9 are the ordinary channels, 10 is the VFO channel V (40_quadrature.md R120). -/
abbrev Chan := Fin numChan

/-- The VFO channel V (40_quadrature.md R120). -/
abbrev chanV : Chan := 10

end Sys2Proof
end

