-- ==== Sys2Proof/Config.lean ====
section
/-! DEFINITION. The configuration parameters of the block (00_scope.md R7, 93_implementation_defined.md part 2), the open
parameters to which the spec gives no value, and the free values that stand for the spec's `draw()` (00_scope.md R12). -/

namespace Sys2Proof

/-- How the VFO channel is captured (40_quadrature.md R120). -/
inductive VfoMode where
  | edge
  | polled
deriving DecidableEq, Repr

/-- Which edges of VFO line A are counted in `EDGE` mode (40_quadrature.md R132, R133). -/
inductive EdgeRule where
  | rising
  | both
deriving DecidableEq, Repr

/-- What a read of the LED register returns (44_bus_protocol.md R226). -/
inductive LedReadback where
  | hostWord
  | projected
deriving DecidableEq, Repr

/-- The register-select values, the open parameter `REG_MAP` (20_memory.md R84). -/
structure RegMap where
  id    : Byte
  hw    : Byte
  led   : Byte
  event : Byte
deriving DecidableEq, Repr

/-- The default `REG_MAP` (20_memory.md R84). -/
def defaultRegMap : RegMap := { id := 0x00, hw := 0x01, led := 0x02, event := 0x03 }

/-- The configuration of the block, fixed from reset (00_scope.md R7). The values that R8 constrains are raw numbers here;
`Sys2Proof.Machine.configOk` is R8's check. -/
structure Config where
  /-- `ENC_DIV`, the divisor of channels 0..9 (10_state.md R35). -/
  encDiv          : Nat
  /-- `VFO_DIV`, the divisor of channel V (10_state.md R35). -/
  vfoDiv          : Nat
  /-- `ACC_WIDTH`, the width of the accumulators and of `vfoRaw` in bits (10_state.md R34). -/
  accWidth        : Nat
  /-- `QUAD_TABLE`, the step contribution of each quadrature index (30_encoding.md R93). -/
  quadTable       : Vector Int 16
  /-- `VFO_MODE` (40_quadrature.md R120). -/
  vfoMode         : VfoMode
  /-- `VFO_EDGE` (40_quadrature.md R131). -/
  vfoEdge         : EdgeRule
  /-- `ROWS` (30_encoding.md R97). -/
  rows            : Nat
  /-- `COLS` (30_encoding.md R97). -/
  cols            : Nat
  /-- `REPORT_TABLE`: entries 0..31 unshifted, 32..63 shifted (30_encoding.md R98). -/
  reportTable     : Vector Byte 64
  /-- `ENC_SHIFT_BTN_CODE` (41_scan_sequencer.md R172). -/
  encShiftBtnCode : Byte
  /-- `ENC_SHIFT_ALT_CODE` (41_scan_sequencer.md R172). -/
  encShiftAltCode : Byte
  /-- `ENC_ID_MAP[encShift][ch]` (40_quadrature.md R128). -/
  encIdMap        : Vector (Vector Nat 10) 2
  /-- `DEBOUNCE_TICKS` (41_scan_sequencer.md R167). -/
  debounceTicks   : Nat
  /-- `LONGPRESS_TICKS` (41_scan_sequencer.md R167). -/
  longpressTicks  : Nat
  /-- `REG_MAP` (20_memory.md R84). -/
  regMap          : RegMap
  /-- `PRODUCT_ID` (30_encoding.md R106). -/
  productId       : Byte
  /-- `FW_VERSION` (30_encoding.md R106). -/
  fwVersion       : Byte
  /-- `HW_REV` (30_encoding.md R107). -/
  hwRev           : Byte
  /-- `LED_BAND_BIT` (30_encoding.md R105). -/
  ledBandBit      : Nat
  /-- `LED_ENC_BIT` (30_encoding.md R105). -/
  ledEncBit       : Nat
  /-- `LED_READBACK` (44_bus_protocol.md R226). -/
  ledReadback     : LedReadback
deriving DecidableEq, Repr

/-- The values a factory-default divisor may have (70_reset_and_hazards.md R304). -/
inductive Divisor where
  | one
  | two
  | four
deriving DecidableEq, Repr, Inhabited

/-- The number a divisor stands for. -/
def Divisor.toNat : Divisor → Nat
  | .one => 1
  | .two => 2
  | .four => 4

/-- `FACTORY_ENC_DIV`, an open parameter (70_reset_and_hazards.md R304). No body: nothing can evaluate it (log 5). -/
opaque Config.factoryEncDiv : Divisor

/-- `FACTORY_VFO_DIV`, an open parameter (70_reset_and_hazards.md R304; log 5). -/
opaque Config.factoryVfoDiv : Divisor

/-- The value of the open parameter `PRODUCT_ID` that `State.reset` runs with (44_bus_protocol.md R224; log 5). -/
opaque Config.openProductId : Byte

/-- The value of the open parameter `FW_VERSION` that `State.reset` runs with (44_bus_protocol.md R224; log 5). -/
opaque Config.openFwVersion : Byte

/-- The value of the open parameter `HW_REV` that `State.reset` runs with (44_bus_protocol.md R225; log 5). -/
opaque Config.openHwRev : Byte

/-- The contents of the open parameter `REPORT_TABLE` that `State.reset` runs with (00_scope.md R7; log 5). -/
opaque Config.openReportCode : Nat → Byte

/-- The value of the open parameter `ENC_SHIFT_BTN_CODE` that `State.reset` runs with (41_scan_sequencer.md R172; log 5). -/
opaque Config.openEncShiftBtnCode : Byte

/-- The value of the open parameter `ENC_SHIFT_ALT_CODE` that `State.reset` runs with (41_scan_sequencer.md R172; log 5). -/
opaque Config.openEncShiftAltCode : Byte

/-- The `k`-th 16-bit draw (00_scope.md R12, 44_bus_protocol.md R229; log 3). -/
opaque Config.freeWord : Nat → Word

/-- The 8-bit draw for response byte `i` under draw index `k` (44_bus_protocol.md R228; log 3). -/
opaque Config.freeByte : Nat → Nat → Byte

/-- The phase sample of channel `ch` under draw index `k`, where no reading was supplied (45_tick_scheduler.md R252; log 2). -/
opaque Config.freePhase : Nat → Nat → Phase

/-- The row vector under draw index `k`, where no reading was supplied (45_tick_scheduler.md R252; log 2). -/
opaque Config.freeRows : Nat → RowVec

/-- What `smp[ch]` holds after RESET under draw index `k` (70_reset_and_hazards.md R300; log 6). -/
opaque Config.freeLatchPhase : Nat → Nat → Phase

/-- What `rowsmp` holds after RESET under draw index `k` (70_reset_and_hazards.md R300; log 6). -/
opaque Config.freeLatchRows : Nat → RowVec

/-- What `led_out` holds after RESET under draw index `k` (70_reset_and_hazards.md R300; log 6). -/
opaque Config.freeLedPort : Nat → LedPort

end Sys2Proof
end

