-- ==== Sys2Proof/Syntax.lean ====
section
/-! DEFINITION. The operations of the block (30_encoding.md R112), one constructor for each row of the opcode table, and the
form in which the host's framing hands a bus transaction to the decoder (R108, R109). -/

namespace Sys2Proof

/-- The twenty operations of 30_encoding.md R112. -/
inductive Instr where
  /-- `BUS_WR_SEL`: a write of the select byte alone (44_bus_protocol.md R233). -/
  | busWrSel (b0 : Byte)
  /-- `BUS_WR_SHORT`: a write of the select byte and one value byte (44_bus_protocol.md R234). -/
  | busWrShort (b0 b1 : Byte)
  /-- `BUS_WR_LED`: a write of three or more bytes to `REG_LED` (44_bus_protocol.md R222). -/
  | busWrLed (lo hi : Byte) (rest : List Byte)
  /-- `BUS_WR_IGNORED`: a write of three or more bytes to another select value (44_bus_protocol.md R235). -/
  | busWrIgnored (b0 lo hi : Byte) (rest : List Byte)
  /-- `BUS_RD_ID`: an n-byte read of ID/Version (44_bus_protocol.md R224). -/
  | busRdId (n : Nat)
  /-- `BUS_RD_HW`: an n-byte read of HW-Version (44_bus_protocol.md R225). -/
  | busRdHw (n : Nat)
  /-- `BUS_RD_LED`: an n-byte read of LED (44_bus_protocol.md R226). -/
  | busRdLed (n : Nat)
  /-- `BUS_RD_EVENT`: an n-byte read of Event (44_bus_protocol.md R227). -/
  | busRdEvent (n : Nat)
  /-- `BUS_RD_UNDEF`: an n-byte read under a select value that names no register (44_bus_protocol.md R229). -/
  | busRdUndef (sel : Byte) (n : Nat)
  /-- `TICK_SAMPLE`: latch this tick's raw inputs (45_tick_scheduler.md R252). -/
  | tickSample
  /-- `SERVICE_PHASE(ch, s)`: fold a phase sample into a channel (40_quadrature.md R121). -/
  | servicePhase (ch : Chan) (s : Phase)
  /-- `ENC_SERVICE(ch)`: an ordinary channel's whole steps become one event (40_quadrature.md R127). -/
  | encService (ch : Fin 10)
  /-- `VFO_SERVICE`: the VFO channel's whole steps become one event (40_quadrature.md R129). -/
  | vfoService
  /-- `CONSUME_STEPS(ch, lo, hi)`: take whole steps out of an accumulator (40_quadrature.md R123). -/
  | consumeSteps (ch : Chan) (lo hi : Int)
  /-- `SCAN_STEP(v)`: one step of the scan sequencer (41_scan_sequencer.md R151). -/
  | scanStep (v : RowVec)
  /-- `LED_PROJECT`: compute the LED outputs (43_led_projection.md R211). -/
  | ledProject
  /-- `VFO_EDGE(a, b)`: count one edge of VFO line A (40_quadrature.md R131). -/
  | vfoEdge (a b : Bool)
  /-- `ENQUEUE(kind, data)`: append one event if there is room (42_event_queue.md R192). -/
  | enqueue (kind : Kind) (data : Byte)
  /-- `DEQUEUE()`: remove the oldest event (42_event_queue.md R195). -/
  | dequeue
  /-- `RESET`: bring the block to its initial state (70_reset_and_hazards.md R300). -/
  | reset
deriving DecidableEq, Repr

/-- A bus transaction as the decoder sees it: a write is its byte string (30_encoding.md R108); a read has no encoded field of
its own, and is the register select in force together with the number of response bytes asked for (R109, R112). -/
inductive Frame where
  | write (b : List Byte)
  | read (sel : Byte) (n : Nat)
deriving DecidableEq, Repr

end Sys2Proof
end

