-- ==== Sys2Proof/WellFormed.lean ====
section
/-! DEFINITION. Which operations are well formed under a configuration: the operand ranges that the rules state. -/

namespace Sys2Proof

/-- Channel `ch` is polled: 0..9 always, V when `VFO_MODE = POLLED` (40_quadrature.md R120). -/
def Config.isPolled (c : Config) (ch : Chan) : Bool :=
  decide (ch ≠ chanV) || decide (c.vfoMode = .polled)

/-- The payload range of the event that carries a channel's steps: -8..7 for ordinary channels, -128..127 for V
(40_quadrature.md R123). -/
def payloadRange (ch : Chan) : Int × Int :=
  if ch = chanV then (-128, 127) else (-8, 7)

/-- The operands lie in the ranges the spec gives them. For reads: at least one byte (30_encoding.md R109), and a register
that 44_bus_protocol.md R228's case order reaches, that is, no earlier register has the same select value. -/
def Instr.wellFormed (c : Config) : Instr → Bool
  | .busWrSel _ => true
  | .busWrShort _ _ => true
  | .busWrLed _ _ _ => true
  | .busWrIgnored b0 _ _ _ => decide (b0 ≠ c.regMap.led)
  | .busRdId n => decide (1 ≤ n)
  | .busRdHw n => decide (1 ≤ n) && decide (c.regMap.hw ≠ c.regMap.id)
  | .busRdLed n => decide (1 ≤ n) && decide (c.regMap.led ≠ c.regMap.id) && decide (c.regMap.led ≠ c.regMap.hw)
  | .busRdEvent n =>
    decide (1 ≤ n) && decide (c.regMap.event ≠ c.regMap.id) && decide (c.regMap.event ≠ c.regMap.hw) &&
      decide (c.regMap.event ≠ c.regMap.led)
  | .busRdUndef sel n =>
    decide (1 ≤ n) && decide (sel ≠ c.regMap.id) && decide (sel ≠ c.regMap.hw) && decide (sel ≠ c.regMap.led) &&
      decide (sel ≠ c.regMap.event)
  | .tickSample => true
  | .servicePhase ch _ => c.isPolled ch
  | .encService _ => true
  | .vfoService => true
  | .consumeSteps ch lo hi => decide ((lo, hi) = payloadRange ch)
  | .scanStep v => decide (v.toNat < 2 ^ c.rows)
  | .ledProject => true
  | .vfoEdge _ _ => decide (c.vfoMode = .edge)
  | .enqueue kind _ => decide (1 ≤ kind.toNat) && decide (kind.toNat ≤ 5)
  | .dequeue => true
  | .reset => true

end Sys2Proof
end

