-- ==== Sys2Proof/Decode.lean ====
section
/-! DEFINITION. The decoder of bus transactions (30_encoding.md R108 to R112), total on any bytes and any length, and the
encoder written from the same table. The other operations have no bit encoding (R90): the tick's position selects them. -/

namespace Sys2Proof

/-- Why a transaction is no operation. -/
inductive DecodeError where
  /-- A write of zero bytes (44_bus_protocol.md R232). -/
  | emptyWrite
  /-- A read of zero bytes (44_bus_protocol.md R232). -/
  | emptyRead
deriving DecidableEq, Repr

/-- The cases of a write transaction, by its length and its select byte (44_bus_protocol.md R221). -/
def decodeWrite (m : RegMap) : List Byte → Except DecodeError Instr
  | [] => .error .emptyWrite
  | [b0] => .ok (.busWrSel b0)
  | [b0, b1] => .ok (.busWrShort b0 b1)
  | b0 :: lo :: hi :: rest =>
    if b0 = m.led then .ok (.busWrLed lo hi rest) else .ok (.busWrIgnored b0 lo hi rest)

/-- The cases of a read transaction, by the register select in force, in the order of 44_bus_protocol.md R228. -/
def decodeRead (m : RegMap) (sel : Byte) (n : Nat) : Except DecodeError Instr :=
  if n = 0 then .error .emptyRead
  else if sel = m.id then .ok (.busRdId n)
  else if sel = m.hw then .ok (.busRdHw n)
  else if sel = m.led then .ok (.busRdLed n)
  else if sel = m.event then .ok (.busRdEvent n)
  else .ok (.busRdUndef sel n)

/-- Decode a bus transaction (30_encoding.md R112). -/
def decode (m : RegMap) : Frame → Except DecodeError Instr
  | .write b => decodeWrite m b
  | .read sel n => decodeRead m sel n

/-- Encode an operation as a bus transaction; an internal operation has no encoding (30_encoding.md R90, R112). -/
def encode (m : RegMap) : Instr → Option Frame
  | .busWrSel b0 => some (.write [b0])
  | .busWrShort b0 b1 => some (.write [b0, b1])
  | .busWrLed lo hi rest => some (.write (m.led :: lo :: hi :: rest))
  | .busWrIgnored b0 lo hi rest => some (.write (b0 :: lo :: hi :: rest))
  | .busRdId n => some (.read m.id n)
  | .busRdHw n => some (.read m.hw n)
  | .busRdLed n => some (.read m.led n)
  | .busRdEvent n => some (.read m.event n)
  | .busRdUndef sel n => some (.read sel n)
  | .tickSample => none
  | .servicePhase _ _ => none
  | .encService _ => none
  | .vfoService => none
  | .consumeSteps _ _ _ => none
  | .scanStep _ => none
  | .ledProject => none
  | .vfoEdge _ _ => none
  | .enqueue _ _ => none
  | .dequeue => none
  | .reset => none

/-- The bytes of a number, least significant first (20_memory.md R72). -/
def leBytes : Nat → Nat → List Byte
  | 0, _ => []
  | k + 1, w => BitVec.ofNat 8 w :: leBytes k (w / 256)

/-- The transaction that a word of the opcode table stands for. The table's rows do not hold the transaction's direction or
length (30_encoding.md R112), and a select byte 0x02 is in a write row and in a read row. DESIGN CHOICE (log 15): 8 bits are
the register select of a 2-byte read; two bytes or more are a write of exactly these bytes; no bits at all are a write of
one zero byte. -/
def frameOfTableWord (nbits w : Nat) : Frame :=
  let len := (nbits + 7) / 8
  if len = 0 then .write [0]
  else if len = 1 then .read (BitVec.ofNat 8 w) 2
  else .write (leBytes len w)

/-- The instruction the decoder reads from a word of the opcode table, under the default `REG_MAP` (20_memory.md R84). -/
def decodeTableWord (nbits w : Nat) : Option Instr :=
  match decode defaultRegMap (frameOfTableWord nbits w) with
  | .ok i => some i
  | .error _ => none

end Sys2Proof
end

