-- ==== Sys2Proof/Machine/Defaults.lean ====
section
/-! DEFINITION. The configuration that `State.reset` runs with: the spec's default for each parameter that has one, and a
constant without a body for each open parameter that has none (log 5). Statements quantify over every configuration. -/

namespace Sys2Proof.Machine

/-- The default `QUAD_TABLE`, entry 0 first (30_encoding.md R93). -/
def defaultQuadTable : Vector Int 16 :=
  #v[0, 1, -1, 2, -1, 0, -2, 1, 1, -2, 0, -1, 2, -1, 1, 0]

/-- The default `ENC_ID_MAP`: the identity for both values of `encShift` (40_quadrature.md R128). -/
def identityEncIdMap : Vector (Vector Nat 10) 2 :=
  #v[#v[0, 1, 2, 3, 4, 5, 6, 7, 8, 9], #v[0, 1, 2, 3, 4, 5, 6, 7, 8, 9]]

/-- The configuration of `State.reset` (00_scope.md R7). After a first boot the divisors are the factory defaults
(70_reset_and_hazards.md R304). -/
def defaultConfig : Config where
  encDiv := Config.factoryEncDiv.toNat
  vfoDiv := Config.factoryVfoDiv.toNat
  accWidth := 16
  quadTable := defaultQuadTable
  vfoMode := .edge
  vfoEdge := .rising
  rows := 8
  cols := 4
  reportTable := Vector.ofFn fun i => Config.openReportCode i.val
  encShiftBtnCode := Config.openEncShiftBtnCode
  encShiftAltCode := Config.openEncShiftAltCode
  encIdMap := identityEncIdMap
  debounceTicks := 10
  longpressTicks := 1000
  regMap := defaultRegMap
  productId := Config.openProductId
  fwVersion := Config.openFwVersion
  hwRev := Config.openHwRev
  ledBandBit := 9
  ledEncBit := 10
  ledReadback := .hostWord

end Sys2Proof.Machine
end

