-- ==== Sys2Proof/Machine/State.lean ====
section
/-! DEFINITION. The state of the block (10_state.md R30 to R48), the model's own bookkeeping of the world outside it, the
reasons a step can stop, and the state after reset (10_state.md R53). -/

namespace Sys2Proof.Machine

/-- The six states of the scan sequencer (10_state.md R36). -/
inductive ScanState where
  | idle
  | waitPressed
  | pressed
  | waitReleased
  | multiPressed
  | waitMultiReleased
deriving DecidableEq, Repr

/-- The tick agent's sub-step position `tphase` (10_state.md R31). -/
inductive TPhase where
  | wait
  | t0Sample
  | t1Phase
  | t2Decode (k : Fin 11)
  | t3Scan
  | t4Led
deriving DecidableEq, Repr

/-- One event: a 4-bit kind code and an 8-bit payload (10_state.md R42). -/
structure Event where
  kind : Kind
  data : Byte
deriving DecidableEq, Repr

/-- The quadrature decoder's state (10_state.md R33, R34). -/
structure Decoder where
  /-- `prev[ch]`, the channel's previous phase sample. -/
  prev   : Vector Phase numChan
  /-- `acc[ch]`, the accumulated signed delta count, a value of `ACC_WIDTH` bits (log 27). -/
  acc    : Vector Int numChan
  /-- `vfoRaw`, the edge count shared with the VFO edge agent, a value of `ACC_WIDTH` bits (log 27). -/
  vfoRaw : Int
deriving DecidableEq, Repr

/-- The scan sequencer's state and the two shift toggles (10_state.md R36 to R41). -/
structure Scanner where
  state     : ScanState
  col       : Nat
  row       : Nat
  dcnt      : Nat
  lpcnt     : Nat
  bandShift : Bool
  encShift  : Bool
deriving DecidableEq, Repr

/-- The event queue and the ready line (10_state.md R42 to R44). -/
structure Queue where
  slot  : Vector Event 16
  w     : BitVec 4
  r     : BitVec 4
  ready : Bool
deriving DecidableEq, Repr

/-- The register interface (10_state.md R45, R46). -/
structure Bus where
  regsel  : Byte
  ledHost : Word
deriving DecidableEq, Repr

/-- The tick sample latches (10_state.md R48). `rowsmp` keeps `ROWS` bits; the bits above are zero after every sampling. -/
structure Latches where
  smp    : Vector Phase numChan
  rowsmp : RowVec
deriving DecidableEq, Repr

/-- One reading of the environment: a phase sample for each channel and the row vector of the selected column
(45_tick_scheduler.md R252). A channel that is not polled ignores its sample. -/
structure Reading where
  phase : Vector Phase numChan
  rows  : RowVec
deriving DecidableEq, Repr

/-- One act of an agent (00_scope.md R5). -/
inductive Act where
  /-- The tick agent takes its next sub-step; in `WAIT` this is the timer's activation (45_tick_scheduler.md R250, R251). -/
  | tick
  /-- The host agent performs one write transaction (44_bus_protocol.md R221). -/
  | write (b : List Byte)
  /-- The host agent performs one read transaction of `n` bytes (44_bus_protocol.md R228). -/
  | read (n : Nat)
  /-- The VFO edge agent captures one edge of line A (40_quadrature.md R131). -/
  | edge (a b : Bool)
  /-- Power-on (70_reset_and_hazards.md R300). -/
  | powerOn
deriving DecidableEq, Repr

/-- The MODEL's own fields, no state of the block: what the agents and the environment will do next (log 1, log 2), the index
of the next free value (log 3), and what the last operation handed out (log 17). -/
structure World where
  /-- The acts to come, next first. When it is empty the tick agent acts (log 1). -/
  inbox    : List Act
  /-- The environment's readings to come, next first. When it is empty a reading is a free value (log 2). -/
  readings : List Reading
  /-- The index of the next free value (log 3). -/
  draws    : Nat
  /-- The response bytes of the last read transaction, byte 0 first (44_bus_protocol.md R228). -/
  resp     : List Byte
  /-- What `CONSUME_STEPS` returned when it last ran as an operation of its own (40_quadrature.md R123). -/
  retSteps : Int
  /-- What `DEQUEUE` returned when it last ran as an operation of its own (42_event_queue.md R195). -/
  retWord  : Word
deriving DecidableEq, Repr

/-- The state: the configuration, fixed from reset (log 4), the block's own state, and the model's bookkeeping. -/
structure State where
  cfg    : Config
  dec    : Decoder
  scan   : Scanner
  queue  : Queue
  bus    : Bus
  ledOut : LedPort
  latch  : Latches
  tphase : TPhase
  world  : World
deriving DecidableEq, Repr

/-- Faults. The block raises no exception, takes no trap and never halts (60_exceptions.md R270), so there is none (log 20). -/
inductive Fault
deriving DecidableEq, Repr

/-- Refusals: the model gives the run no meaning (00_scope.md R12, 60_exceptions.md R275). -/
inductive Refusal where
  /-- Raised by `exec` for an operation without a meaning; no arm of this model uses it. Safe. -/
  | notModelled (mnemonic : String)
  /-- Raised by `RESET` for a configuration that breaks 00_scope.md R8 (70_reset_and_hazards.md R300). Safe. -/
  | configuration
  /-- Raised by `step` for a write transaction of zero bytes (44_bus_protocol.md R232). Safe. -/
  | emptyWrite
  /-- Raised by `step` and by the read operations for a read transaction of zero bytes (44_bus_protocol.md R232). Safe. -/
  | emptyRead
deriving DecidableEq, Repr

/-- The block right after reset (10_state.md R53), under the default configuration (log 5). `prev` takes the phase samples at
reset, here 0b00 (log 7); `led_out`, `smp` and `rowsmp` are unspecified by R53 and are zero here (log 6). -/
def State.reset : State where
  cfg := defaultConfig
  dec := { prev := Vector.replicate numChan 0, acc := Vector.replicate numChan 0, vfoRaw := 0 }
  scan := { state := .idle, col := 0, row := 0, dcnt := 0, lpcnt := 0, bandShift := false, encShift := false }
  queue := { slot := Vector.replicate 16 { kind := 0, data := 0 }, w := 0, r := 0, ready := false }
  bus := { regsel := defaultRegMap.id, ledHost := 0x0000 }
  ledOut := 0
  latch := { smp := Vector.replicate numChan 0, rowsmp := 0 }
  tphase := .wait
  world := { inbox := [], readings := [], draws := 0, resp := [], retSteps := 0, retWord := 0 }

end Sys2Proof.Machine
end

