-- ==== Sys2Proof/Machine/Operands.lean ====
section
/-! DEFINITION. The operand and data forms of the block: channels and divisors, the quadrature index, row vectors and scan
codes, event payloads, register words, and the check of a configuration. -/

namespace Sys2Proof.Machine

/-! ### Integers (00_scope.md R10) -/

/-- `clamp(v, lo, hi)` (00_scope.md R10). -/
def clamp (v lo hi : Int) : Int := min (max v lo) hi

/-- `wrap_N(v)`: the value congruent to `v` modulo `2^N` in the signed range of `N` bits (00_scope.md R10). -/
def wrapN (n : Nat) (v : Int) : Int := Int.bmod v (2 ^ n)

/-- `wrap_ACC_WIDTH(v)` (40_quadrature.md R126). -/
def wrapAcc (c : Config) (v : Int) : Int := wrapN c.accWidth v

/-! ### Configuration (00_scope.md R8) -/

/-- A legal divisor (00_scope.md R8). -/
def isDivisor (d : Nat) : Bool := decide (d = 1) || decide (d = 2) || decide (d = 4)

/-- The geometry's constraint (00_scope.md R8, 30_encoding.md R97). -/
def geometryOk (c : Config) : Bool := decide (c.rows * c.cols = 32) && decide (4 ≤ c.rows)

/-- Every `QUAD_TABLE` entry is in -2..2 (00_scope.md R8). -/
def quadTableOk (c : Config) : Bool := c.quadTable.toList.all fun x => decide (-2 ≤ x) && decide (x ≤ 2)

/-- Every `ENC_ID_MAP` value is in 0..15 (00_scope.md R8). -/
def encIdMapOk (c : Config) : Bool := c.encIdMap.toList.all fun m => m.toList.all fun x => decide (x ≤ 15)

/-- The configuration keeps every constraint of 00_scope.md R8. -/
def configOk (c : Config) : Bool :=
  isDivisor c.encDiv && isDivisor c.vfoDiv && geometryOk c && quadTableOk c && encIdMapOk c &&
    decide (1 ≤ c.debounceTicks) && decide (1 ≤ c.longpressTicks)

/-! ### Channels (40_quadrature.md R120) -/

/-- Ordinary channel `ch` as a channel. -/
def ordinary (ch : Fin 10) : Chan := ch.castSucc

/-- `div[ch]` (10_state.md R35). -/
def divisor (c : Config) (ch : Chan) : Nat := if ch = chanV then c.vfoDiv else c.encDiv

/-- The ordinary channels in ascending order (40_quadrature.md R120). -/
def ordinaryChans : List Chan := [0, 1, 2, 3, 4, 5, 6, 7, 8, 9]

/-- The polled channels in the order T1 services them: 0..9, then V when `VFO_MODE = POLLED` (45_tick_scheduler.md R253). -/
def polledChans (c : Config) : List Chan :=
  if c.vfoMode = .polled then ordinaryChans ++ [chanV] else ordinaryChans

/-- The samples of the polled channels taken from `new`; a channel that is not polled keeps its sample of `old`
(45_tick_scheduler.md R252, 70_reset_and_hazards.md R300). -/
def pickPolled (c : Config) (new old : Vector Phase numChan) : Vector Phase numChan :=
  if c.vfoMode = .polled then new else new.set 10 old[10]

/-! ### Quadrature decoder formats -/

/-- The quadrature index: the new sample in bits 3..2, the previous one in bits 1..0 (30_encoding.md R92). -/
def quadIndex (new old : Phase) : BitVec 4 := new ++ old

/-- The step contribution of a quadrature index (30_encoding.md R93). -/
def contribution (c : Config) (idx : BitVec 4) : Int := c.quadTable[idx.toNat]

/-- The direction of an edge of line A that is counted (40_quadrature.md R132, R133). -/
def edgeDir (rule : EdgeRule) (a b : Bool) : Int :=
  match rule with
  | .rising => if b then 1 else -1
  | .both => if a = b then 1 else -1

/-- An edge is counted: every edge under `BOTH`, a rising one under `RISING` (40_quadrature.md R131). -/
def edgeCounts (rule : EdgeRule) (a : Bool) : Bool :=
  match rule with
  | .rising => a
  | .both => true

/-- `CONSUME_STEPS` on an accumulator: the count taken and what stays (40_quadrature.md R123, R125). -/
def consumed (d : Nat) (lo hi : Int) (acc : Int) : Int × Int :=
  let qc := clamp (Int.tdiv acc d) lo hi
  (qc, acc - qc * d)

/-! ### Scanner formats -/

/-- The scan code of the band-shift button (41_scan_sequencer.md R170). -/
def bandShiftScan : Nat := 9

/-- The scan code of the encoder-shift button (41_scan_sequencer.md R170). -/
def encShiftScan : Nat := 27

/-- The three results of a row classification (30_encoding.md R95). -/
inductive RowClass where
  | none
  | row (r : Nat)
  | multi
deriving DecidableEq, Repr

/-- The asserted rows of a row vector, ascending (30_encoding.md R94). -/
def setRows (rows : Nat) (v : RowVec) : List Nat := (List.range rows).filter fun r => v.getLsbD r

/-- `rowclass(v)` (30_encoding.md R95). -/
def rowClass (rows : Nat) (v : RowVec) : RowClass :=
  match setRows rows v with
  | [] => .none
  | [r] => .row r
  | _ :: _ :: _ => .multi

/-- The `ROWS` bits of a row reading (45_tick_scheduler.md R252). -/
def rowBits (rows : Nat) (v : RowVec) : RowVec := (v.setWidth rows).setWidth 32

/-- The scan code of column `col` and row `row` (30_encoding.md R96). -/
def scanCode (c : Config) (col row : Nat) : Nat := col * c.rows + row

/-- `scancode(c, v)`: 0xFF for no row or several rows (30_encoding.md R95, R96). -/
def scanCodeOf (c : Config) (col : Nat) (v : RowVec) : Nat :=
  match rowClass c.rows v with
  | .none => 0xFF
  | .row r => scanCode c col r
  | .multi => 0xFF

/-- The report-table index (30_encoding.md R98). -/
def reportIndex (scan : Nat) (bandShift : Bool) : Nat := scan + 32 * bandShift.toNat

/-- The report-table entry at an index; an index above 63 is out of every run's reach and reads 0 (log 14). -/
def reportEntry (c : Config) (i : Nat) : Byte := c.reportTable.toList.getD i 0

/-- `classify(s)` (41_scan_sequencer.md R169, R172). -/
def classify (c : Config) (scan : Nat) (bandShift encShift : Bool) : Byte :=
  let code := reportEntry c (reportIndex scan bandShift)
  if encShift = true ∧ code = c.encShiftBtnCode then c.encShiftAltCode else code

/-! ### Event formats -/

/-- The kind codes (30_encoding.md R100). -/
def kindVfoStep : Kind := 1
/-- EncoderStep (30_encoding.md R100). -/
def kindEncoderStep : Kind := 2
/-- ButtonPress (30_encoding.md R100). -/
def kindButtonPress : Kind := 3
/-- ButtonLongPress (30_encoding.md R100). -/
def kindButtonLongPress : Kind := 4
/-- ButtonRelease (30_encoding.md R100). -/
def kindButtonRelease : Kind := 5

/-- `ENC_ID_MAP[encShift][ch]` (40_quadrature.md R128). -/
def encoderId (c : Config) (encShift : Bool) (ch : Fin 10) : Nat :=
  match encShift with
  | false => c.encIdMap[0][ch]
  | true => c.encIdMap[1][ch]

/-- The EncoderStep payload: identifier in bits 7..4, count in bits 3..0 (30_encoding.md R102). -/
def encStepData (id : Nat) (steps : Int) : Byte := BitVec.ofNat 4 id ++ BitVec.ofInt 4 steps

/-- The VFOStep payload (30_encoding.md R103). -/
def vfoStepData (steps : Int) : Byte := BitVec.ofInt 8 steps

/-- The Event register word of an event with `left` events left behind it (30_encoding.md R101). -/
def eventWord (left : Nat) (e : Event) : Word := BitVec.ofNat 4 left ++ e.kind ++ e.data

/-! ### Register words -/

/-- A word from its high and its low byte (20_memory.md R72). -/
def wordOf (hi lo : Byte) : Word := hi ++ lo

/-- Bits 7..0 of a word, byte 0 on the bus (20_memory.md R72). -/
def lowByte (w : Word) : Byte := w.extractLsb' 0 8

/-- Bits 15..8 of a word, byte 1 on the bus (20_memory.md R72). -/
def highByte (w : Word) : Byte := w.extractLsb' 8 8

/-- The ID/Version word (30_encoding.md R106). -/
def idWord (c : Config) : Word := wordOf c.productId c.fwVersion

/-- The HW-Version word (30_encoding.md R107). -/
def hwWord (c : Config) : Word := wordOf 0x00 c.hwRev

/-- Write one bit of the LED port; a bit number above 10 names no bit (log 25). -/
def setLedBit (v : LedPort) (i : Nat) (b : Bool) : LedPort :=
  if b then v ||| ((1 : LedPort) <<< i) else v &&& ~~~((1 : LedPort) <<< i)

/-- The LED outputs that a host word and the two toggles give (43_led_projection.md R211). -/
def projectLeds (c : Config) (ledHost : Word) (bandShift encShift : Bool) : LedPort :=
  let host := ledHost.extractLsb' 0 11
  if ledHost.getLsbD 15 then host
  else setLedBit (setLedBit host c.ledBandBit bandShift) c.ledEncBit encShift

/-- The word a LED read returns (44_bus_protocol.md R226). -/
def ledReadWord (c : Config) (ledHost : Word) (bandShift encShift : Bool) : Word :=
  match c.ledReadback with
  | .hostWord => ledHost
  | .projected => ledHost.extractLsb' 15 1 ++ (0 : BitVec 4) ++ projectLeds c ledHost bandShift encShift

/-- The `n` bytes of a response: the word's low byte, its high byte, then 8-bit draws under index `k`
(44_bus_protocol.md R228). -/
def responseBytes (w : Word) (k : Nat) : Nat → List Byte
  | 0 => []
  | 1 => [lowByte w]
  | m + 2 => lowByte w :: highByte w :: (List.range m).map fun i => Config.freeByte k (i + 2)

end Sys2Proof.Machine
end

