-- ==== Sys2Proof/Machine/Flags.lean ====
section
/-! DEFINITION. The block's 1-bit status elements. It has no arithmetic flags (10_state.md R50): what is computed here is the
ready line, the two shift toggles, and the queue's full and empty conditions. -/

namespace Sys2Proof.Machine

/-- The queue's depth `(q.w - q.r) mod 16` (42_event_queue.md R191). -/
def Queue.depth (q : Queue) : Nat := (q.w - q.r).toNat

/-- The queue is full: `(q.w + 1) mod 16 = q.r` (42_event_queue.md R191). -/
def Queue.isFull (q : Queue) : Bool := decide (q.w + 1 = q.r)

/-- The ready line after a successful enqueue (42_event_queue.md R194). -/
def readyAfterEnqueue : Bool := true

/-- The ready line after a dequeue: cleared exactly when the depth before the pop is 1 or less (42_event_queue.md R197). -/
def readyAfterDequeue (depth : Nat) (ready : Bool) : Bool := if depth ≤ 1 then false else ready

/-- The ready line after a read of ID/Version or HW-Version (44_bus_protocol.md R224, R225). -/
def readyAfterIdRead : Bool := false

/-- A shift toggle after its button's press is confirmed (41_scan_sequencer.md R170). -/
def toggled (b : Bool) : Bool := !b

end Sys2Proof.Machine
end

