-- ==== Sys2Proof/Machine/Ops.lean ====
section
/-! DEFINITION. The named operations over the state that the meanings share. Each part of the state is written through one
update here. The block raises no exception (60_exceptions.md R270), so there is no operation that takes one. -/

namespace Sys2Proof.Machine

/-! ### Updates of the state's parts -/

/-- Write the quadrature decoder's state. -/
def State.setDec (s : State) (d : Decoder) : State := { s with dec := d }
/-- Write the scan sequencer's state. -/
def State.setScan (s : State) (x : Scanner) : State := { s with scan := x }
/-- Write the event queue and the ready line. -/
def State.setQueue (s : State) (q : Queue) : State := { s with queue := q }
/-- Write the register interface. -/
def State.setBus (s : State) (b : Bus) : State := { s with bus := b }
/-- Write the LED port. -/
def State.setLedOut (s : State) (v : LedPort) : State := { s with ledOut := v }
/-- Write the tick sample latches. -/
def State.setLatch (s : State) (l : Latches) : State := { s with latch := l }
/-- Write the tick position. -/
def State.setTphase (s : State) (t : TPhase) : State := { s with tphase := t }
/-- Write the model's own fields. -/
def State.setWorld (s : State) (w : World) : State := { s with world := w }

/-! ### The quadrature decoder -/

/-- Write one accumulator (10_state.md R34). -/
def Decoder.setAcc (d : Decoder) (ch : Chan) (a : Int) : Decoder := { d with acc := d.acc.set ch.val a }

/-- Write one previous sample (10_state.md R33). -/
def Decoder.setPrev (d : Decoder) (ch : Chan) (p : Phase) : Decoder := { d with prev := d.prev.set ch.val p }

/-- Fold a phase sample into a channel (40_quadrature.md R121). -/
def Decoder.fold (d : Decoder) (c : Config) (ch : Chan) (s : Phase) : Decoder :=
  (d.setAcc ch (wrapAcc c (d.acc[ch] + contribution c (quadIndex s d.prev[ch])))).setPrev ch s

/-- The read-and-clear of `vfoRaw` into the VFO channel's accumulator (40_quadrature.md R129, R134). -/
def Decoder.moveRaw (d : Decoder) (c : Config) : Decoder :=
  { d.setAcc chanV (wrapAcc c (d.acc[chanV] + d.vfoRaw)) with vfoRaw := 0 }

/-- Count one edge of VFO line A (40_quadrature.md R131). -/
def Decoder.countEdge (d : Decoder) (c : Config) (a b : Bool) : Decoder :=
  if edgeCounts c.vfoEdge a then { d with vfoRaw := wrapAcc c (d.vfoRaw + edgeDir c.vfoEdge a b) } else d

/-- `CONSUME_STEPS`: the count returned and the state with the residue kept (40_quadrature.md R123). -/
def State.consume (s : State) (ch : Chan) (lo hi : Int) : Int × State :=
  let r := consumed (divisor s.cfg ch) lo hi s.dec.acc[ch]
  (r.1, s.setDec (s.dec.setAcc ch r.2))

/-! ### The event queue -/

/-- `ENQUEUE` on the queue: append one event if there is room (42_event_queue.md R192, R193). -/
def Queue.push (q : Queue) (e : Event) : Queue :=
  if q.isFull then q
  else { slot := q.slot.set q.w.toNat e, w := q.w + 1, r := q.r, ready := readyAfterEnqueue }

/-- `DEQUEUE` on the queue: the Event word and the queue after the pop (42_event_queue.md R195, R198). -/
def Queue.pop (q : Queue) : Word × Queue :=
  let ready := readyAfterDequeue q.depth q.ready
  if q.depth = 0 then (0x0000, { q with ready := ready })
  else (eventWord (q.depth - 1) q.slot[q.r.toNat], { q with r := q.r + 1, ready := ready })

/-- The ready line cleared by an identification read (44_bus_protocol.md R224, R225). -/
def Queue.clearReady (q : Queue) : Queue := { q with ready := readyAfterIdRead }

/-- `emit(kind, data)` (00_scope.md R12, 42_event_queue.md R192). -/
def State.emit (s : State) (e : Event) : State := s.setQueue (s.queue.push e)

/-- Emit an event if there is one. -/
def State.emitOpt (s : State) : Option Event → State
  | none => s
  | some e => s.emit e

/-! ### Draws and readings -/

/-- The reading of the environment that nothing fixes (00_scope.md R12, 45_tick_scheduler.md R252; log 2). -/
def freeReading (k : Nat) : Reading :=
  { phase := Vector.ofFn fun ch => Config.freePhase k ch.val, rows := Config.freeRows k }

/-- The environment's next reading: the next one supplied, or a free value (log 2). -/
def World.reading (w : World) : Reading :=
  match w.readings with
  | [] => freeReading w.draws
  | r :: _ => r

/-- The bookkeeping after a reading was taken: the next draw index, and the supplied reading used up (log 2, log 3). -/
def World.afterReading (w : World) : World := { w with readings := w.readings.tail, draws := w.draws + 1 }

/-- Hand out the response of a read transaction and take a fresh draw index (44_bus_protocol.md R228; log 3, log 17). -/
def State.respond (s : State) (word : Word) (n : Nat) : State :=
  s.setWorld { s.world with resp := responseBytes word s.world.draws n, draws := s.world.draws + 1 }

/-- Write the register select (44_bus_protocol.md R221). -/
def State.select (s : State) (sel : Byte) : State := s.setBus { s.bus with regsel := sel }

end Sys2Proof.Machine
end

