-- ==== Sys2Proof/Machine/BusProtocol.lean ====
section
/-! DEFINITION. The register-addressed bus protocol (44_bus_protocol.md): the cases of a write and of a read transaction. -/

namespace Sys2Proof.Machine

/-- `BUS_WR_SEL` (44_bus_protocol.md R233). -/
def execBusWrSel (b0 : Byte) (s : State) : Host.Outcome State Fault Refusal :=
  .next (s.select b0)

/-- `BUS_WR_SHORT`: the value byte is ignored (44_bus_protocol.md R234). -/
def execBusWrShort (b0 _b1 : Byte) (s : State) : Host.Outcome State Fault Refusal :=
  .next (s.select b0)

/-- `BUS_WR_LED`: bytes after the value are ignored (44_bus_protocol.md R222). -/
def execBusWrLed (lo hi : Byte) (_rest : List Byte) (s : State) : Host.Outcome State Fault Refusal :=
  .next (s.setBus { regsel := s.cfg.regMap.led, ledHost := wordOf hi lo })

/-- `BUS_WR_IGNORED`: the value is ignored (44_bus_protocol.md R235). -/
def execBusWrIgnored (b0 _lo _hi : Byte) (_rest : List Byte) (s : State) : Host.Outcome State Fault Refusal :=
  .next (s.select b0)

/-- The general form of a read transaction of `n` bytes that returns `word` and leaves the queue as `q`
(44_bus_protocol.md R228, R232). -/
def busRead (n : Nat) (word : Word) (q : Queue) (s : State) : Host.Outcome State Fault Refusal :=
  if n = 0 then .refused .emptyRead else .next ((s.setQueue q).respond word n)

/-- `BUS_RD_ID` (44_bus_protocol.md R224). -/
def execBusRdId (n : Nat) (s : State) : Host.Outcome State Fault Refusal :=
  busRead n (idWord s.cfg) s.queue.clearReady s

/-- `BUS_RD_HW` (44_bus_protocol.md R225). -/
def execBusRdHw (n : Nat) (s : State) : Host.Outcome State Fault Refusal :=
  busRead n (hwWord s.cfg) s.queue.clearReady s

/-- `BUS_RD_LED` (44_bus_protocol.md R226). -/
def execBusRdLed (n : Nat) (s : State) : Host.Outcome State Fault Refusal :=
  busRead n (ledReadWord s.cfg s.bus.ledHost s.scan.bandShift s.scan.encShift) s.queue s

/-- `BUS_RD_EVENT` (44_bus_protocol.md R227). -/
def execBusRdEvent (n : Nat) (s : State) : Host.Outcome State Fault Refusal :=
  busRead n s.queue.pop.1 s.queue.pop.2 s

/-- `BUS_RD_UNDEF`: the word is a 16-bit draw (44_bus_protocol.md R229). -/
def execBusRdUndef (_sel : Byte) (n : Nat) (s : State) : Host.Outcome State Fault Refusal :=
  busRead n (Config.freeWord s.world.draws) s.queue s

end Sys2Proof.Machine
end

