-- ==== Sys2Proof/Machine/EventQueue.lean ====
section
/-! DEFINITION. The event queue's two helpers as operations of their own (42_event_queue.md). -/

namespace Sys2Proof.Machine

/-- `ENQUEUE(kind, data)` (42_event_queue.md R192). -/
def execEnqueue (kind : Kind) (data : Byte) (s : State) : Host.Outcome State Fault Refusal :=
  .next (s.emit { kind := kind, data := data })

/-- `DEQUEUE()` run as an operation of its own; the word it returns goes to `retWord` (42_event_queue.md R195; log 17). -/
def execDequeue (s : State) : Host.Outcome State Fault Refusal :=
  .next ((s.setQueue s.queue.pop.2).setWorld { s.world with retWord := s.queue.pop.1 })

end Sys2Proof.Machine
end

