-- ==== Sys2Proof/Machine/Led.lean ====
section
/-! DEFINITION. The LED projection (43_led_projection.md). -/

namespace Sys2Proof.Machine

/-- `LED_PROJECT` (43_led_projection.md R211). -/
def execLedProject (s : State) : Host.Outcome State Fault Refusal :=
  .next (s.setLedOut (projectLeds s.cfg s.bus.ledHost s.scan.bandShift s.scan.encShift))

end Sys2Proof.Machine
end

