-- ==== Sys2Proof/Machine/Quadrature.lean ====
section
/-! DEFINITION. The quadrature decoder's operations (40_quadrature.md). -/

namespace Sys2Proof.Machine

/-- `SERVICE_PHASE(ch, s)` (40_quadrature.md R121). -/
def execServicePhase (ch : Chan) (p : Phase) (s : State) : Host.Outcome State Fault Refusal :=
  .next (s.setDec (s.dec.fold s.cfg ch p))

/-- `CONSUME_STEPS(ch, lo, hi)` run as an operation of its own; the count it returns goes to `retSteps`
(40_quadrature.md R123; log 17). -/
def execConsumeSteps (ch : Chan) (lo hi : Int) (s : State) : Host.Outcome State Fault Refusal :=
  let r := s.consume ch lo hi
  .next (r.2.setWorld { r.2.world with retSteps := r.1 })

/-- `ENC_SERVICE(ch)` (40_quadrature.md R127). -/
def execEncService (ch : Fin 10) (s : State) : Host.Outcome State Fault Refusal :=
  let r := s.consume (ordinary ch) (-8) 7
  if r.1 = 0 then .next r.2
  else .next (r.2.emit { kind := kindEncoderStep, data := encStepData (encoderId s.cfg s.scan.encShift ch) r.1 })

/-- The VFO channel with the captured edges moved in, in `EDGE` mode (40_quadrature.md R129). -/
def State.gatherVfo (s : State) : State :=
  match s.cfg.vfoMode with
  | .edge => s.setDec (s.dec.moveRaw s.cfg)
  | .polled => s

/-- `VFO_SERVICE` (40_quadrature.md R129). -/
def execVfoService (s : State) : Host.Outcome State Fault Refusal :=
  let r := s.gatherVfo.consume chanV (-128) 127
  if r.1 = 0 then .next r.2
  else .next (r.2.emit { kind := kindVfoStep, data := vfoStepData r.1 })

/-- `VFO_EDGE(a, b)` (40_quadrature.md R131). In `POLLED` mode there is no edge agent and nothing happens (R130; log 11). -/
def execVfoEdge (a b : Bool) (s : State) : Host.Outcome State Fault Refusal :=
  match s.cfg.vfoMode with
  | .edge => .next (s.setDec (s.dec.countEdge s.cfg a b))
  | .polled => .next s

end Sys2Proof.Machine
end

