-- ==== Sys2Proof/Machine/ResetOp.lean ====
section
/-! DEFINITION. The reset operation (70_reset_and_hazards.md R300). -/

namespace Sys2Proof.Machine

/-- What `RESET` leaves in the decoder: `prev` holds the polled channels' phase samples (70_reset_and_hazards.md R300, R302). -/
def Decoder.afterReset (d : Decoder) (c : Config) (r : Reading) : Decoder :=
  { prev := pickPolled c r.phase d.prev, acc := Vector.replicate numChan 0, vfoRaw := 0 }

/-- What `RESET` leaves in the sequencer (70_reset_and_hazards.md R300). -/
def resetScanner : Scanner :=
  { state := .idle, col := 0, row := 0, dcnt := 0, lpcnt := 0, bandShift := false, encShift := false }

/-- What `RESET` leaves in the queue (70_reset_and_hazards.md R300). -/
def resetQueue : Queue :=
  { slot := Vector.replicate 16 { kind := 0, data := 0 }, w := 0, r := 0, ready := false }

/-- What `RESET` leaves in the latches: unspecified, so free values of their widths (70_reset_and_hazards.md R300; log 6). -/
def freeLatches (c : Config) (k : Nat) : Latches :=
  { smp := Vector.ofFn fun ch => Config.freeLatchPhase k ch.val, rowsmp := rowBits c.rows (Config.freeLatchRows k) }

/-- `RESET` (70_reset_and_hazards.md R300): an invalid configuration is refused; `led_out`, `smp` and `rowsmp` are left
unspecified, so they hold free values (log 6). -/
def execReset (s : State) : Host.Outcome State Fault Refusal :=
  if configOk s.cfg then
    .next
      { cfg := s.cfg
        dec := s.dec.afterReset s.cfg s.world.reading
        scan := resetScanner
        queue := resetQueue
        bus := { regsel := s.cfg.regMap.id, ledHost := 0x0000 }
        ledOut := Config.freeLedPort s.world.draws
        latch := freeLatches s.cfg s.world.draws
        tphase := .wait
        world := s.world.afterReading }
  else .refused .configuration

end Sys2Proof.Machine
end

