-- ==== Sys2Proof/Machine/Scan.lean ====
section
/-! DEFINITION. The matrix scan sequencer (41_scan_sequencer.md): one step as a function from the sequencer's state and the
row classification to its next state and the event it emits, one definition for each of the six states. -/

namespace Sys2Proof.Machine

/-- The scan code of the held button (41_scan_sequencer.md R169). -/
def Scanner.heldScan (x : Scanner) (c : Config) : Nat := scanCode c x.col x.row

/-- `report(kind)`: the event for the held button, if one is emitted (41_scan_sequencer.md R173, R174). -/
def Scanner.report (x : Scanner) (c : Config) (kind : Kind) : Option Event :=
  if x.heldScan c = bandShiftScan ∨ x.heldScan c = encShiftScan then none
  else
    let code := classify c (x.heldScan c) x.bandShift x.encShift
    if code = 0 ∨ code = 0xFF then none else some { kind := kind, data := code }

/-- `confirmPress()` (41_scan_sequencer.md R170). -/
def Scanner.confirmPress (x : Scanner) (c : Config) : Scanner × Option Event :=
  if x.heldScan c = bandShiftScan then ({ x with bandShift := toggled x.bandShift }, none)
  else if x.heldScan c = encShiftScan then ({ x with encShift := toggled x.encShift }, none)
  else (x, x.report c kindButtonPress)

/-- Load the debounce countdown and enter a waiting state (41_scan_sequencer.md R167). -/
def Scanner.enter (x : Scanner) (c : Config) (st : ScanState) : Scanner :=
  { x with dcnt := c.debounceTicks, state := st }

/-- The countdown of a waiting state; a countdown of 0, which no run meets there, stays 0 (41_scan_sequencer.md R167; log 13). -/
def Scanner.countDown (x : Scanner) : Scanner := { x with dcnt := x.dcnt - 1 }

/-- The step from `Idle` (41_scan_sequencer.md R153 to R155). -/
def Scanner.stepIdle (x : Scanner) (c : Config) (rc : RowClass) : Scanner × Option Event :=
  match rc with
  | .none => ({ x with col := (x.col + 1) % c.cols }, none)
  | .row r => (({ x with row := r }).enter c .waitPressed, none)
  | .multi => (x.enter c .multiPressed, none)

/-- The step from `WaitPressed` (41_scan_sequencer.md R156 to R158). -/
def Scanner.stepWaitPressed (x : Scanner) (c : Config) (rc : RowClass) : Scanner × Option Event :=
  let y := x.countDown
  if y.dcnt = 0 then
    if rc = .row y.row then ({ y with state := .pressed, lpcnt := c.longpressTicks }).confirmPress c
    else (y.enter c .multiPressed, none)
  else (y, none)

/-- The step from `Pressed` (41_scan_sequencer.md R159 to R161). -/
def Scanner.stepPressed (x : Scanner) (c : Config) (rc : RowClass) : Scanner × Option Event :=
  if rc = .row x.row then
    if 0 < x.lpcnt then
      let y := { x with lpcnt := x.lpcnt - 1 }
      if y.lpcnt = 0 then (y, y.report c kindButtonLongPress) else (y, none)
    else (x, none)
  else if rc = .none then (x.enter c .waitReleased, none)
  else (x.enter c .multiPressed, x.report c kindButtonRelease)

/-- The step from `WaitReleased` (41_scan_sequencer.md R162 to R164). -/
def Scanner.stepWaitReleased (x : Scanner) (c : Config) (rc : RowClass) : Scanner × Option Event :=
  let y := x.countDown
  if y.dcnt = 0 then
    if rc = .none then ({ y with state := .idle }, y.report c kindButtonRelease)
    else if rc = .row y.row then ({ y with state := .pressed }, none)
    else (y.enter c .multiPressed, none)
  else (y, none)

/-- The step from `MultiPressed` (41_scan_sequencer.md R165). -/
def Scanner.stepMultiPressed (x : Scanner) (c : Config) (rc : RowClass) : Scanner × Option Event :=
  let y := x.countDown
  if y.dcnt = 0 then
    if rc = .none then (y.enter c .waitMultiReleased, none) else (y.enter c .multiPressed, none)
  else (y, none)

/-- The step from `WaitMultiReleased` (41_scan_sequencer.md R166). -/
def Scanner.stepWaitMultiReleased (x : Scanner) (c : Config) (rc : RowClass) : Scanner × Option Event :=
  let y := x.countDown
  if y.dcnt = 0 then
    if rc = .none then ({ y with state := .idle }, none) else (y.enter c .multiPressed, none)
  else (y, none)

/-- One step of the sequencer: its next state and the event it emits (41_scan_sequencer.md R151). -/
def Scanner.next (x : Scanner) (c : Config) (rc : RowClass) : Scanner × Option Event :=
  match x.state with
  | .idle => x.stepIdle c rc
  | .waitPressed => x.stepWaitPressed c rc
  | .pressed => x.stepPressed c rc
  | .waitReleased => x.stepWaitReleased c rc
  | .multiPressed => x.stepMultiPressed c rc
  | .waitMultiReleased => x.stepWaitMultiReleased c rc

/-- `SCAN_STEP(v)` (41_scan_sequencer.md R151). -/
def execScanStep (v : RowVec) (s : State) : Host.Outcome State Fault Refusal :=
  let r := s.scan.next s.cfg (rowClass s.cfg.rows v)
  .next ((s.setScan r.1).emitOpt r.2)

end Sys2Proof.Machine
end

