-- ==== Sys2Proof/Machine/Tick.lean ====
section
/-! DEFINITION. The tick's sampling sub-step and the order of a tick's sub-steps (45_tick_scheduler.md). -/

namespace Sys2Proof.Machine

/-- The latches after a reading was taken (45_tick_scheduler.md R252). -/
def Latches.sample (l : Latches) (c : Config) (r : Reading) : Latches :=
  { smp := pickPolled c r.phase l.smp, rowsmp := rowBits c.rows r.rows }

/-- `TICK_SAMPLE` (45_tick_scheduler.md R252). -/
def execTickSample (s : State) : Host.Outcome State Fault Refusal :=
  .next (((s.setLatch (s.latch.sample s.cfg s.world.reading)).setTphase .t1Phase).setWorld s.world.afterReading)

/-- The tick position after `T2_DECODE(k)` (45_tick_scheduler.md R254). -/
def afterDecode (k : Fin 11) : TPhase :=
  if h : k.val + 1 < 11 then .t2Decode ⟨k.val + 1, h⟩ else .t3Scan

/-- The service that runs at `T2_DECODE(k)`: the VFO at 0, channel k - 1 above (45_tick_scheduler.md R254). -/
def decodeService (k : Fin 11) : Instr :=
  match k with
  | ⟨0, _⟩ => .vfoService
  | ⟨j + 1, h⟩ => .encService ⟨j, by omega⟩

/-- The operations of the tick agent's next sub-step, run as one atomic operation (45_tick_scheduler.md R251, R253). In `WAIT`
there is none: the timer starts a tick (R250). -/
def tickOps (s : State) : List Instr :=
  match s.tphase with
  | .wait => []
  | .t0Sample => [.tickSample]
  | .t1Phase => (polledChans s.cfg).map fun ch => .servicePhase ch s.latch.smp[ch]
  | .t2Decode k => [decodeService k]
  | .t3Scan => [.scanStep s.latch.rowsmp]
  | .t4Led => [.ledProject]

/-- The tick position after the tick agent's next sub-step (45_tick_scheduler.md R251). -/
def nextTphase : TPhase → TPhase
  | .wait => .t0Sample
  | .t0Sample => .t1Phase
  | .t1Phase => .t2Decode 0
  | .t2Decode k => afterDecode k
  | .t3Scan => .t4Led
  | .t4Led => .wait

end Sys2Proof.Machine
end

