-- ==== Sys2Proof/Machine/Dispatch.lean ====
section
/-! DEFINITION. The meaning of every operation (30_encoding.md R112), one arm for each. -/

namespace Sys2Proof.Machine

def exec (i : Instr) (s : State) : Host.Outcome State Fault Refusal :=
  match i with
  | .busWrSel b0 => Sys2Proof.Machine.execBusWrSel b0 s
  | .busWrShort b0 b1 => Sys2Proof.Machine.execBusWrShort b0 b1 s
  | .busWrLed lo hi rest => Sys2Proof.Machine.execBusWrLed lo hi rest s
  | .busWrIgnored b0 lo hi rest => Sys2Proof.Machine.execBusWrIgnored b0 lo hi rest s
  | .busRdId n => Sys2Proof.Machine.execBusRdId n s
  | .busRdHw n => Sys2Proof.Machine.execBusRdHw n s
  | .busRdLed n => Sys2Proof.Machine.execBusRdLed n s
  | .busRdEvent n => Sys2Proof.Machine.execBusRdEvent n s
  | .busRdUndef sel n => Sys2Proof.Machine.execBusRdUndef sel n s
  | .tickSample => Sys2Proof.Machine.execTickSample s
  | .servicePhase ch p => Sys2Proof.Machine.execServicePhase ch p s
  | .encService ch => Sys2Proof.Machine.execEncService ch s
  | .vfoService => Sys2Proof.Machine.execVfoService s
  | .consumeSteps ch lo hi => Sys2Proof.Machine.execConsumeSteps ch lo hi s
  | .scanStep v => Sys2Proof.Machine.execScanStep v s
  | .ledProject => Sys2Proof.Machine.execLedProject s
  | .vfoEdge a b => Sys2Proof.Machine.execVfoEdge a b s
  | .enqueue kind data => Sys2Proof.Machine.execEnqueue kind data s
  | .dequeue => Sys2Proof.Machine.execDequeue s
  | .reset => Sys2Proof.Machine.execReset s

end Sys2Proof.Machine
end

