-- ==== Sys2Proof/Machine/Fetch.lean ====
section
/-! DEFINITION. Which operations the next step runs, and running them. There is no program and no instruction fetch
(00_scope.md R3, 20_memory.md R82): the next act of `inbox` says which agent moves (log 1), a bus transaction is decoded, and
the tick agent's position selects its sub-step (10_state.md R31). -/

namespace Sys2Proof.Machine

/-- What the next step runs: the operations of one atomic act, in order, and the tick position afterwards where the act is
the tick agent's. -/
structure Fetched where
  ops   : List Instr
  after : Option TPhase
deriving DecidableEq, Repr

/-- The tick agent's next sub-step (45_tick_scheduler.md R251). -/
def fetchTick (s : State) : Fetched := { ops := tickOps s, after := some (nextTphase s.tphase) }

/-- The refusal of a transaction that is no operation (44_bus_protocol.md R232). -/
def refusalOf : DecodeError → Refusal
  | .emptyWrite => .emptyWrite
  | .emptyRead => .emptyRead

/-- The operation of a bus transaction (30_encoding.md R112). -/
def fetchFrame (s : State) (f : Frame) : Except Refusal Fetched :=
  match decode s.cfg.regMap f with
  | .ok i => .ok { ops := [i], after := none }
  | .error e => .error (refusalOf e)

/-- The next act's operations (00_scope.md R5). A read reads the register that `regsel` names (30_encoding.md R110). -/
def fetch (s : State) : Except Refusal Fetched :=
  match s.world.inbox with
  | [] => .ok (fetchTick s)
  | .tick :: _ => .ok (fetchTick s)
  | .write b :: _ => fetchFrame s (.write b)
  | .read n :: _ => fetchFrame s (.read s.bus.regsel n)
  | .edge a b :: _ => .ok { ops := [.vfoEdge a b], after := none }
  | .powerOn :: _ => .ok { ops := [.reset], after := none }

/-- The state with its next act used up. -/
def State.popInbox (s : State) : State := s.setWorld { s.world with inbox := s.world.inbox.tail }

/-- Run operations in order as one atomic operation (20_memory.md R78). -/
def runOps : List Instr → State → Host.Outcome State Fault Refusal
  | [], s => .next s
  | i :: rest, s =>
    match exec i s with
    | .next s' => runOps rest s'
    | .fault f => .fault f
    | .refused r => .refused r

/-- Advance the tick position after the tick agent's sub-step (45_tick_scheduler.md R251). -/
def advance (after : Option TPhase) : Host.Outcome State Fault Refusal → Host.Outcome State Fault Refusal
  | .next s =>
    match after with
    | none => .next s
    | some t => .next (s.setTphase t)
  | .fault f => .fault f
  | .refused r => .refused r

/-- One step: the next act's operations. -/
def runFetched (s : State) : Host.Outcome State Fault Refusal :=
  match fetch s with
  | .ok f => advance f.after (runOps f.ops s.popInbox)
  | .error r => .refused r

/-- The state in which a transaction is the next act. A read is also given the register select it is decoded with. -/
def State.presentFrame (s : State) (f : Frame) : State :=
  match f with
  | .write b => s.setWorld { s.world with inbox := .write b :: s.world.inbox }
  | .read sel n => (s.select sel).setWorld { s.world with inbox := .read n :: s.world.inbox }

end Sys2Proof.Machine
end

