-- ==== Sys2Proof/Machine/Step.lean ====
section
/-! DEFINITION. One step of the machine. -/

namespace Sys2Proof.Machine

/-- One step: one atomic operation of one agent (00_scope.md R5, 20_memory.md R78). -/
def step (s : State) : Host.Outcome State Fault Refusal := runFetched s

/-- The state whose next step runs the instruction of a word of the opcode table (log 15, log 16). -/
def State.withFetchWord (s : State) (nbits w : Nat) : State := s.presentFrame (frameOfTableWord nbits w)

end Sys2Proof.Machine
end

