-- ==== Sys2Proof/Safety.lean ====
section
/-! DEFINITION. What the statements speak of: a legal configuration, the queue's contents, a response, the LED bits, and the
invariants of 10_state.md R52. -/

namespace Sys2Proof.Machine

/-- The constraints of 00_scope.md R8, as it lists them. -/
structure ConfigLegal (c : Config) : Prop where
  encDiv    : c.encDiv = 1 ∨ c.encDiv = 2 ∨ c.encDiv = 4
  vfoDiv    : c.vfoDiv = 1 ∨ c.vfoDiv = 2 ∨ c.vfoDiv = 4
  geometry  : c.rows * c.cols = 32
  rows      : 4 ≤ c.rows
  quadTable : ∀ i : Fin 16, -2 ≤ c.quadTable[i] ∧ c.quadTable[i] ≤ 2
  encIdMap  : ∀ (e : Fin 2) (ch : Fin 10), c.encIdMap[e][ch] ≤ 15
  debounce  : 1 ≤ c.debounceTicks
  longpress : 1 ≤ c.longpressTicks

/-- The events held, oldest first (42_event_queue.md R190, R199). -/
def Queue.contents (q : Queue) : List Event :=
  (List.range q.depth).map fun i => q.slot[(q.r + BitVec.ofNat 4 i).toNat]

/-- `resp` is a response of `n` bytes that carries `w`, least significant byte first (44_bus_protocol.md R228). Nothing is
said of the bytes after the second. -/
def ResponseCarries (w : Word) (n : Nat) (resp : List Byte) : Prop :=
  resp.length = n ∧ resp[0]? = some (BitVec.ofNat 8 w.toNat) ∧ (2 ≤ n → resp[1]? = some (BitVec.ofNat 8 (w.toNat / 256)))

/-- `t` is `s` but for the response handed out and the draw index used: what a read transaction does to the model's own fields. -/
def World.ReadBy (w t : World) : Prop :=
  t = { w with resp := t.resp, draws := w.draws + 1 }

/-- LED output bit `i` as 43_led_projection.md R211 writes it: `LED_ENC_BIT` is written last. -/
def State.ledBit (s : State) (i : Nat) : Bool :=
  if s.bus.ledHost.getLsbD 15 then s.bus.ledHost.getLsbD i
  else if i = s.cfg.ledEncBit then s.scan.encShift
  else if i = s.cfg.ledBandBit then s.scan.bandShift
  else s.bus.ledHost.getLsbD i

/-- A waiting state of the sequencer (41_scan_sequencer.md R167). -/
def ScanState.isWaiting : ScanState → Bool
  | .idle => false
  | .waitPressed => true
  | .pressed => false
  | .waitReleased => true
  | .multiPressed => true
  | .waitMultiReleased => true

/-- The sequencer's invariants: 10_state.md R52 (2) and (3), and a countdown of at least 1 in a waiting state. -/
structure ScannerInv (c : Config) (x : Scanner) : Prop where
  dcnt    : x.dcnt ≤ c.debounceTicks
  lpcnt   : x.lpcnt ≤ c.longpressTicks
  col     : x.col < c.cols
  row     : x.row < c.rows
  waiting : x.state.isWaiting = true → 1 ≤ x.dcnt

/-- The queue's invariants: 10_state.md R52 (5), and the kind and report codes of the events held (30_encoding.md R99, R100). -/
structure QueueInv (q : Queue) : Prop where
  ready : q.ready = true → 0 < q.depth
  kinds : ∀ e ∈ q.contents, 1 ≤ e.kind.toNat ∧ e.kind.toNat ≤ 5
  codes : ∀ e ∈ q.contents, 3 ≤ e.kind.toNat → e.data ≠ 0 ∧ e.data ≠ 0xFF

/-- The largest magnitude of a polled channel's accumulator at tick position `t`: `D + 1` between its phase service and its
consumption at `T2_DECODE(k)`, `D - 1` elsewhere (10_state.md R52 (4), 40_quadrature.md R137). -/
def accBound (d k : Nat) : TPhase → Int
  | .wait => d - 1
  | .t0Sample => d - 1
  | .t1Phase => d - 1
  | .t2Decode j => if j.val ≤ k then d + 1 else d - 1
  | .t3Scan => d - 1
  | .t4Led => d - 1

/-- `v` is in the signed range of `n` bits, -2^(n-1) to 2^(n-1) - 1 (00_scope.md R10); with no bits, `v` is 0. -/
abbrev Fits (n : Nat) (v : Int) : Prop := -2 ^ n ≤ 2 * v ∧ 2 * v < 2 ^ n

/-- The decoder's invariants: the width of the accumulators and of `vfoRaw` (10_state.md R34), the bounds on polled channels (10_state.md R52 (4), 40_quadrature.md R137), and no captured edge
in `POLLED` mode (R130). -/
structure DecoderInv (c : Config) (t : TPhase) (d : Decoder) : Prop where
  accWidth : ∀ ch : Chan, Fits c.accWidth d.acc[ch]
  rawWidth : Fits c.accWidth d.vfoRaw
  ordinary : ∀ ch : Fin 10, |d.acc[ch.castSucc]| ≤ accBound c.encDiv (ch.val + 1) t
  vfo      : c.vfoMode = .polled → |d.acc[chanV]| ≤ accBound c.vfoDiv 0 t
  raw      : c.vfoMode = .polled → d.vfoRaw = 0

/-- The invariants of every reachable state. -/
structure Inv (s : State) : Prop where
  config  : ConfigLegal s.cfg
  scanner : ScannerInv s.cfg s.scan
  queue   : QueueInv s.queue
  decoder : DecoderInv s.cfg s.tphase s.dec
  rowsmp  : s.latch.rowsmp.toNat < 2 ^ s.cfg.rows

/-- The tick agent makes the next step of `s` (45_tick_scheduler.md R251). -/
def State.tickTurn (s : State) : Prop := s.world.inbox = [] ∨ s.world.inbox.head? = some .tick

/-- `k` dequeues in a row: the words they return, and the state they leave (42_event_queue.md R199). -/
def drain : Nat → State → List Word × State
  | 0, s => ([], s)
  | k + 1, s =>
    match exec .dequeue s with
    | .next t => (t.world.retWord :: (drain k t).1, (drain k t).2)
    | .fault _ => ([], s)
    | .refused _ => ([], s)

end Sys2Proof.Machine
end

