-- ==== Sys2Proof/Certificates/Slice0/Obligations.lean ====
section
/-! DEFINITION. The statements for the provers, one `def Obligations.<Name> : Prop` each, in the order of the spec's files.
A conclusion of the form `exec i s = .next { s with … }` gives the whole next state, so it is the frame too. -/

open Sys2Proof Sys2Proof.Machine

/-! ### Encoding (30_encoding.md) -/

/-- 30_encoding.md R112: every well-formed operation that has an encoding is read back from it, with every operand. -/
def Obligations.DecodeOfEncodeGivesTheOperation : Prop :=
  ∀ (c : Config) (i : Instr) (f : Frame),
    i.wellFormed c = true → encode c.regMap i = some f → decode c.regMap f = .ok i

/-- 30_encoding.md R112: a transaction is read as at most one operation, and that operation encodes to this transaction: no
byte of it is dropped. -/
def Obligations.EncodeOfDecodeGivesTheTransaction : Prop :=
  ∀ (m : RegMap) (f : Frame) (i : Instr), decode m f = .ok i → encode m i = some f

/-- 44_bus_protocol.md R221, R228, R232: a transaction is turned away exactly where it has no byte. -/
def Obligations.OnlyEmptyTransactionsAreNotDecoded : Prop :=
  ∀ (m : RegMap) (f : Frame), (∃ e, decode m f = .error e) ↔ (f = .write [] ∨ ∃ sel, f = .read sel 0)

/-- 95_test_vectors.md: transactions of its bus vectors, written out byte by byte, are the operations they stand for. -/
def Obligations.BusVectorsDecodeToTheirOperations : Prop :=
  decode defaultRegMap (.write [0x03]) = .ok (.busWrSel 0x03) ∧
  decode defaultRegMap (.write [0x02, 0xFF]) = .ok (.busWrShort 0x02 0xFF) ∧
  decode defaultRegMap (.write [0x02, 0x34, 0x12, 0x99]) = .ok (.busWrLed 0x34 0x12 [0x99]) ∧
  decode defaultRegMap (.write [0x03, 0x00, 0x00]) = .ok (.busWrIgnored 0x03 0x00 0x00 []) ∧
  decode defaultRegMap (.read 0x00 2) = .ok (.busRdId 2) ∧
  decode defaultRegMap (.read 0x01 4) = .ok (.busRdHw 4) ∧
  decode defaultRegMap (.read 0x02 2) = .ok (.busRdLed 2) ∧
  decode defaultRegMap (.read 0x03 1) = .ok (.busRdEvent 1) ∧
  decode defaultRegMap (.read 0x7E 2) = .ok (.busRdUndef 0x7E 2)

/-- 30_encoding.md R95, R96: `rowclass(v)` by the set of asserted rows, and the scan code it gives on column `col`. -/
def Obligations.RowClassCountsAssertedRows : Prop :=
  ∀ (rows : Nat) (v : RowVec),
    (rowClass rows v = .none ↔ ∀ r < rows, v.getLsbD r = false) ∧
    (∀ r, rowClass rows v = .row r ↔ (r < rows ∧ v.getLsbD r = true ∧ ∀ q < rows, v.getLsbD q = true → q = r)) ∧
    (rowClass rows v = .multi ↔ ∃ q r, q < r ∧ r < rows ∧ v.getLsbD q = true ∧ v.getLsbD r = true) ∧
    ∀ (c : Config) (col : Nat), c.rows = rows →
      (∀ r, rowClass rows v = .row r → scanCodeOf c col v = col * c.rows + r) ∧
      ((∀ r, rowClass rows v ≠ .row r) → scanCodeOf c col v = 0xFF)

/-- 40_quadrature.md R122, 30_encoding.md R91 to R93: the default table with its signs. No change adds 0; a step of the positive
sequence 00, 10, 11, 01, 00 adds +1 and its reverse -1; 00 and 11 in either order +2; 01 and 10 in either order -2. Every pair
of samples falls under exactly one of these. -/
def Obligations.DefaultQuadTableSignsTransitions : Prop :=
  ∀ new old : Phase, ∀ x : Int, x = defaultQuadTable[(new ++ old).toNat] →
    (new = old → x = 0) ∧
    ((old, new) ∈ [((0b00, 0b10) : Phase × Phase), (0b10, 0b11), (0b11, 0b01), (0b01, 0b00)] →
      x = 1 ∧ defaultQuadTable[(old ++ new).toNat] = -1) ∧
    (new ^^^ old = 0b11 → x = if new = 0b00 ∨ new = 0b11 then 2 else -2) ∧
    (new ^^^ old = 0b01 ∨ new ^^^ old = 0b10 →
      (x = 1 ∨ x = -1) ∧ defaultQuadTable[(old ++ new).toNat] = -x)

/-! ### The bus protocol (44_bus_protocol.md) -/

/-- 44_bus_protocol.md R233, R234, R235: a write that carries no LED value sets `regsel` and nothing else. -/
def Obligations.WritesWithoutLedValueOnlySelect : Prop :=
  ∀ (b0 b1 lo hi : Byte) (rest : List Byte) (s : State),
    exec (.busWrSel b0) s = .next { s with bus := { s.bus with regsel := b0 } } ∧
    exec (.busWrShort b0 b1) s = .next { s with bus := { s.bus with regsel := b0 } } ∧
    exec (.busWrIgnored b0 lo hi rest) s = .next { s with bus := { s.bus with regsel := b0 } }

/-- 44_bus_protocol.md R222: a LED write sets `regsel` and the whole LED word, and nothing else. -/
def Obligations.LedWriteSetsTheLedWord : Prop :=
  ∀ (lo hi : Byte) (rest : List Byte) (s : State),
    exec (.busWrLed lo hi rest) s = .next { s with bus := { regsel := s.cfg.regMap.led, ledHost := hi ++ lo } }

/-- 44_bus_protocol.md R221: the step in which the host writes the byte string `b`. -/
def Obligations.WriteTransactionStep : Prop :=
  ∀ (s : State) (b : List Byte) (acts : List Act), s.world.inbox = .write b :: acts →
    (b = [] → step s = .refused .emptyWrite) ∧
    (∀ b0 bs, b = b0 :: bs →
      step s = .next { s with
        bus :=
          { regsel := b0
            ledHost := match bs with
              | lo :: hi :: _ => if b0 = s.cfg.regMap.led then hi ++ lo else s.bus.ledHost
              | [_] => s.bus.ledHost
              | [] => s.bus.ledHost }
        world := { s.world with inbox := acts } })

/-- 44_bus_protocol.md R224: a read of ID/Version returns its word and clears the ready line, and nothing else. -/
def Obligations.IdReadReturnsIdAndClearsReady : Prop :=
  ∀ (n : Nat) (s : State), 1 ≤ n →
    ∃ t, exec (.busRdId n) s = .next t ∧
      ResponseCarries (s.cfg.productId ++ s.cfg.fwVersion) n t.world.resp ∧ s.world.ReadBy t.world ∧
      t = { s with queue := { s.queue with ready := false }, world := t.world }

/-- 44_bus_protocol.md R225: a read of HW-Version returns its word and clears the ready line, and nothing else. -/
def Obligations.HwReadReturnsRevisionAndClearsReady : Prop :=
  ∀ (n : Nat) (s : State), 1 ≤ n →
    ∃ t, exec (.busRdHw n) s = .next t ∧
      ResponseCarries ((0x00 : Byte) ++ s.cfg.hwRev) n t.world.resp ∧ s.world.ReadBy t.world ∧
      t = { s with queue := { s.queue with ready := false }, world := t.world }

/-- 44_bus_protocol.md R226: a read of LED returns the host's word, or bit 15 of it, four zeros and the projected bits; no
state is written. -/
def Obligations.LedReadReturnsHostOrProjectedWord : Prop :=
  ∀ (n : Nat) (s : State), 1 ≤ n →
    ∃ t w, exec (.busRdLed n) s = .next t ∧ ResponseCarries w n t.world.resp ∧ s.world.ReadBy t.world ∧
      t = { s with world := t.world } ∧
      (s.cfg.ledReadback = .hostWord → w = s.bus.ledHost) ∧
      (s.cfg.ledReadback = .projected →
        w.getLsbD 15 = s.bus.ledHost.getLsbD 15 ∧ (∀ i, 11 ≤ i → i ≤ 14 → w.getLsbD i = false) ∧
        ∀ i, i ≤ 10 → w.getLsbD i = s.ledBit i)

/-- 44_bus_protocol.md R227: a read of Event returns what `DEQUEUE` returns and leaves the queue as `DEQUEUE` leaves it. -/
def Obligations.EventReadDequeuesOneEvent : Prop :=
  ∀ (n : Nat) (s : State), 1 ≤ n →
    ∃ t u, exec (.busRdEvent n) s = .next t ∧ exec .dequeue s = .next u ∧
      ResponseCarries u.world.retWord n t.world.resp ∧ s.world.ReadBy t.world ∧
      t = { s with queue := u.queue, world := t.world }

/-- 44_bus_protocol.md R229: a read under a select value that names no register returns a 16-bit draw and writes no state. The
draw is the free value of the present index: the statement holds whatever it is. -/
def Obligations.UnrecognisedReadReturnsADraw : Prop :=
  ∀ (sel : Byte) (n : Nat) (s : State), 1 ≤ n →
    ∃ t, exec (.busRdUndef sel n) s = .next t ∧
      ResponseCarries (Config.freeWord s.world.draws) n t.world.resp ∧ s.world.ReadBy t.world ∧
      t = { s with world := t.world }

/-- 44_bus_protocol.md R232: a transaction of zero bytes is refused, a write and a read, whatever `regsel` holds; and so is
each read operation of zero bytes. -/
def Obligations.EmptyTransactionsAreRefused : Prop :=
  ∀ (sel : Byte) (s : State) (acts : List Act),
    (s.world.inbox = .write [] :: acts → step s = .refused .emptyWrite) ∧
    (s.world.inbox = .read 0 :: acts → step s = .refused .emptyRead) ∧
    exec (.busRdId 0) s = .refused .emptyRead ∧ exec (.busRdHw 0) s = .refused .emptyRead ∧
    exec (.busRdLed 0) s = .refused .emptyRead ∧ exec (.busRdEvent 0) s = .refused .emptyRead ∧
    exec (.busRdUndef sel 0) s = .refused .emptyRead

/-- 44_bus_protocol.md R228, R230: the step in which the host reads runs the operation of the register that `regsel` names,
in the order of R228, and never changes `regsel`; a read of zero bytes is refused. -/
def Obligations.ReadTransactionStep : Prop :=
  ∀ (s : State) (n : Nat) (acts : List Act), s.world.inbox = .read n :: acts →
    (n = 0 → step s = .refused .emptyRead) ∧
    (1 ≤ n → ∃ t, step s = .next t ∧ t.bus = s.bus ∧ t.world.resp.length = n ∧
      exec
        (if s.bus.regsel = s.cfg.regMap.id then .busRdId n
          else if s.bus.regsel = s.cfg.regMap.hw then .busRdHw n
          else if s.bus.regsel = s.cfg.regMap.led then .busRdLed n
          else if s.bus.regsel = s.cfg.regMap.event then .busRdEvent n
          else .busRdUndef s.bus.regsel n)
        { s with world := { s.world with inbox := acts } } = .next t)

/-! ### The event queue (42_event_queue.md) -/

/-- 42_event_queue.md R192, R193, R194: an enqueue appends one event and sets the ready line, or, on a full queue, changes
nothing at all. -/
def Obligations.EnqueueAppendsOrDrops : Prop :=
  ∀ (kind : Kind) (data : Byte) (s : State),
    (s.queue.w + 1 = s.queue.r → exec (.enqueue kind data) s = .next s) ∧
    (s.queue.w + 1 ≠ s.queue.r →
      exec (.enqueue kind data) s = .next { s with
        queue :=
          { slot := s.queue.slot.set s.queue.w.toNat { kind := kind, data := data }
            w := s.queue.w + 1, r := s.queue.r, ready := true } })

/-- 42_event_queue.md R195 to R198: a dequeue by the depth before the pop. -/
def Obligations.DequeueTakesTheOldest : Prop :=
  ∀ (s : State) (d : Nat), d = (s.queue.w - s.queue.r).toNat →
    (d = 0 → exec .dequeue s = .next { s with
      queue := { s.queue with ready := false }, world := { s.world with retWord := 0x0000 } }) ∧
    (1 ≤ d → exec .dequeue s = .next { s with
      queue := { s.queue with r := s.queue.r + 1, ready := if d = 1 then false else s.queue.ready }
      world := { s.world with
        retWord := BitVec.ofNat 4 (d - 1) ++ s.queue.slot[s.queue.r.toNat].kind ++ s.queue.slot[s.queue.r.toNat].data } })

/-- 42_event_queue.md R199, as a refinement: on the list of events held, oldest first, an enqueue appends at the end while
fewer than 15 are held, and a dequeue removes the head. -/
def Obligations.QueueRefinesAFifoList : Prop :=
  ∀ s : State,
    (∀ kind data, ∃ t, exec (.enqueue kind data) s = .next t ∧
      t.queue.contents =
        if s.queue.contents.length < 15 then s.queue.contents ++ [{ kind := kind, data := data }] else s.queue.contents) ∧
    (∃ t, exec .dequeue s = .next t ∧ t.queue.contents = s.queue.contents.tail ∧
      (∀ e es, s.queue.contents = e :: es → t.world.retWord = BitVec.ofNat 4 es.length ++ e.kind ++ e.data) ∧
      (s.queue.contents = [] → t.world.retWord = 0x0000))

/-- 42_event_queue.md R199: from an empty queue, k enqueues and then k dequeues, k at most 15, return the k events in order,
with depth fields k-1, ..., 0, and leave the queue empty with the ready line low. After 15 enqueues a 16th is dropped. -/
def Obligations.FifoReturnsEventsInOrder : Prop :=
  ∀ (s : State) (es : List Event), s.queue.w = s.queue.r → 1 ≤ es.length → es.length ≤ 15 →
    ∃ t, runOps (es.map fun e => .enqueue e.kind e.data) s = .next t ∧ t.queue.depth = es.length ∧ t.queue.ready = true ∧
      (drain es.length t).1 = es.mapIdx (fun i e => BitVec.ofNat 4 (es.length - 1 - i) ++ e.kind ++ e.data) ∧
      (drain es.length t).2.queue.depth = 0 ∧ (drain es.length t).2.queue.ready = false ∧
      (es.length = 15 → ∀ kind data, exec (.enqueue kind data) t = .next t)

/-! ### The quadrature decoder (40_quadrature.md) -/

/-- 40_quadrature.md R121: a phase service adds the table's contribution to the channel's accumulator, wrapping at
`ACC_WIDTH` bits, keeps the sample, and changes nothing else. -/
def Obligations.PhaseServiceAddsContribution : Prop :=
  ∀ (ch : Chan) (p : Phase) (s : State),
    exec (.servicePhase ch p) s = .next { s with
      dec := { s.dec with
        acc := s.dec.acc.set ch (Int.bmod (s.dec.acc[ch] + s.cfg.quadTable[(p ++ s.dec.prev[ch]).toNat]) (2 ^ s.cfg.accWidth))
        prev := s.dec.prev.set ch p } }

/-- 40_quadrature.md R123: a consumption takes the truncated quotient, clamped, and leaves the rest; it changes nothing else
of the block. -/
def Obligations.ConsumptionTakesClampedQuotient : Prop :=
  ∀ (ch : Chan) (lo hi : Int) (s : State) (a d q : Int), a = s.dec.acc[ch] →
    d = (if ch = 10 then s.cfg.vfoDiv else s.cfg.encDiv : Nat) → q = min (max (Int.tdiv a d) lo) hi →
    exec (.consumeSteps ch lo hi) s = .next { s with
      dec := { s.dec with acc := s.dec.acc.set ch (a - q * d) }
      world := { s.world with retSteps := q } }

/-- 40_quadrature.md R124, R125: with a legal divisor and a range that holds 0, no step is discarded: the count returned lies
in the range, and count times divisor plus what stays is what was there; where the quotient fits the range, what stays is
smaller than the divisor and is 0 or has the accumulator's sign. -/
def Obligations.ConsumptionLosesNoStep : Prop :=
  ∀ (ch : Chan) (lo hi : Int) (s : State) (a d : Int), a = s.dec.acc[ch] →
    d = (if ch = 10 then s.cfg.vfoDiv else s.cfg.encDiv : Nat) → (d = 1 ∨ d = 2 ∨ d = 4) → lo ≤ 0 → 0 ≤ hi →
    ∃ t r, exec (.consumeSteps ch lo hi) s = .next t ∧ r = t.dec.acc[ch] ∧
      lo ≤ t.world.retSteps ∧ t.world.retSteps ≤ hi ∧ a = d * t.world.retSteps + r ∧
      (lo ≤ Int.tdiv a d → Int.tdiv a d ≤ hi →
        t.world.retSteps = Int.tdiv a d ∧ r = Int.tmod a d ∧ |r| < d ∧ (r = 0 ∨ (0 < r ∧ 0 < a) ∨ (r < 0 ∧ a < 0)))

/-- 40_quadrature.md R127, R128: an ordinary channel's whole steps become one EncoderStep event under the identifier that
`encShift` selects; a count of 0 emits nothing. -/
def Obligations.EncoderServiceEmitsWholeSteps : Prop :=
  ∀ (ch : Fin 10) (s : State) (a q : Int) (id : Nat), a = s.dec.acc[ch.castSucc] →
    q = min (max (Int.tdiv a s.cfg.encDiv) (-8)) 7 →
    id = (if s.scan.encShift then s.cfg.encIdMap[1][ch] else s.cfg.encIdMap[0][ch]) →
    exec (.encService ch) s = .next { s with
      dec := { s.dec with acc := s.dec.acc.set ch.castSucc (a - q * s.cfg.encDiv) }
      queue := if q = 0 then s.queue else s.queue.push { kind := 2, data := BitVec.ofNat 4 id ++ BitVec.ofInt 4 q } }

/-- 40_quadrature.md R129, R130: the VFO service moves the captured edges into the accumulator in `EDGE` mode, and its whole
steps become one VFOStep event. -/
def Obligations.VfoServiceEmitsWholeSteps : Prop :=
  ∀ (s : State) (a : Int) (q : Int),
    a = (if s.cfg.vfoMode = .edge then Int.bmod (s.dec.acc[10] + s.dec.vfoRaw) (2 ^ s.cfg.accWidth) else s.dec.acc[10]) →
    q = min (max (Int.tdiv a s.cfg.vfoDiv) (-128)) 127 →
    exec .vfoService s = .next { s with
      dec := { s.dec with
        acc := s.dec.acc.set 10 (a - q * s.cfg.vfoDiv)
        vfoRaw := if s.cfg.vfoMode = .edge then 0 else s.dec.vfoRaw }
      queue := if q = 0 then s.queue else s.queue.push { kind := 1, data := BitVec.ofInt 8 q } }

/-- 40_quadrature.md R131 to R133, in `EDGE` mode: under `RISING` only rising edges of line A count, +1 if B is high and -1 if
not; under `BOTH` every edge counts, +1 if A = B and -1 if not. Only `vfoRaw` changes, and it wraps at `ACC_WIDTH` bits. -/
def Obligations.VfoEdgeCountsOneEdge : Prop :=
  ∀ (a b : Bool) (s : State), s.cfg.vfoMode = .edge →
    exec (.vfoEdge a b) s = .next { s with
      dec := { s.dec with
        vfoRaw := match s.cfg.vfoEdge, a, b with
          | .rising, false, _ => s.dec.vfoRaw
          | .rising, true, true => Int.bmod (s.dec.vfoRaw + 1) (2 ^ s.cfg.accWidth)
          | .rising, true, false => Int.bmod (s.dec.vfoRaw - 1) (2 ^ s.cfg.accWidth)
          | .both, true, true => Int.bmod (s.dec.vfoRaw + 1) (2 ^ s.cfg.accWidth)
          | .both, false, false => Int.bmod (s.dec.vfoRaw + 1) (2 ^ s.cfg.accWidth)
          | .both, true, false => Int.bmod (s.dec.vfoRaw - 1) (2 ^ s.cfg.accWidth)
          | .both, false, true => Int.bmod (s.dec.vfoRaw - 1) (2 ^ s.cfg.accWidth) } }

/-- In `POLLED` mode an edge act has no effect: the model's choice (log 11), drawn from 40_quadrature.md R130's "the VFO edge
agent has no steps". -/
def Obligations.VfoEdgeHasNoEffectWhenPolled : Prop :=
  ∀ (a b : Bool) (s : State), s.cfg.vfoMode = .polled → exec (.vfoEdge a b) s = .next s

/-- 40_quadrature.md R135: no step is lost inside the decoder. For the VFO channel in `EDGE` mode, `vfoRaw + acc[V]` taken
modulo 2^ACC_WIDTH grows by a counted edge's direction, and a service keeps it but for the divisor times the count it emits. -/
def Obligations.VfoPathConservesSteps : Prop :=
  ∀ s : State, s.cfg.vfoMode = .edge →
    (∀ a b, ∃ t, exec (.vfoEdge a b) s = .next t ∧
      t.dec.vfoRaw + t.dec.acc[10] ≡ s.dec.vfoRaw + s.dec.acc[10] +
        (if s.cfg.vfoEdge = .rising ∧ a = false then 0
          else if (s.cfg.vfoEdge = .rising ∧ b = true) ∨ (s.cfg.vfoEdge = .both ∧ a = b) then 1 else -1)
        [ZMOD 2 ^ s.cfg.accWidth]) ∧
    (∃ t q, exec .vfoService s = .next t ∧
      (t.queue = if q = 0 then s.queue else s.queue.push { kind := 1, data := BitVec.ofInt 8 q }) ∧
      -128 ≤ q ∧ q ≤ 127 ∧
      t.dec.vfoRaw + t.dec.acc[10] + s.cfg.vfoDiv * q ≡ s.dec.vfoRaw + s.dec.acc[10] [ZMOD 2 ^ s.cfg.accWidth])

/-- 40_quadrature.md R135 for the polled channels: over a phase service and the channel's step service, accumulator plus divisor
times the count emitted grows by the table's contribution, modulo 2^ACC_WIDTH. So it is for each ordinary channel, and in
`POLLED` mode for the VFO channel, whose `vfoRaw` stays as it is (R130). -/
def Obligations.EncoderPathConservesSteps : Prop :=
  ∀ (s : State) (p : Phase),
    (∀ ch : Fin 10, ∃ t q,
      runOps [.servicePhase ch.castSucc p, .encService ch] s = .next t ∧
      (t.queue = if q = 0 then s.queue else s.queue.push
        { kind := 2
          data := BitVec.ofNat 4 (if s.scan.encShift then s.cfg.encIdMap[1][ch] else s.cfg.encIdMap[0][ch]) ++ BitVec.ofInt 4 q }) ∧
      -8 ≤ q ∧ q ≤ 7 ∧
      t.dec.acc[ch.castSucc] + s.cfg.encDiv * q ≡
        s.dec.acc[ch.castSucc] + s.cfg.quadTable[(p ++ s.dec.prev[ch.castSucc]).toNat] [ZMOD 2 ^ s.cfg.accWidth]) ∧
    (s.cfg.vfoMode = .polled → ∃ t q,
      runOps [.servicePhase 10 p, .vfoService] s = .next t ∧
      (t.queue = if q = 0 then s.queue else s.queue.push { kind := 1, data := BitVec.ofInt 8 q }) ∧
      -128 ≤ q ∧ q ≤ 127 ∧ t.dec.vfoRaw = s.dec.vfoRaw ∧
      t.dec.acc[10] + s.cfg.vfoDiv * q ≡
        s.dec.acc[10] + s.cfg.quadTable[(p ++ s.dec.prev[10]).toNat] [ZMOD 2 ^ s.cfg.accWidth])

/-! ### The scan sequencer (41_scan_sequencer.md) -/

/-- 41_scan_sequencer.md R153, R154, R155: the step from `Idle`. -/
def Obligations.ScanStepFromIdle : Prop :=
  ∀ (v : RowVec) (s : State), s.scan.state = .idle →
    (rowClass s.cfg.rows v = .none →
      exec (.scanStep v) s = .next { s with scan := { s.scan with col := (s.scan.col + 1) % s.cfg.cols } }) ∧
    (∀ r, rowClass s.cfg.rows v = .row r →
      exec (.scanStep v) s = .next { s with
        scan := { s.scan with row := r, dcnt := s.cfg.debounceTicks, state := .waitPressed } }) ∧
    (rowClass s.cfg.rows v = .multi →
      exec (.scanStep v) s = .next { s with
        scan := { s.scan with dcnt := s.cfg.debounceTicks, state := .multiPressed } })

/-- 41_scan_sequencer.md R156, R157, R158, R170: the step from `WaitPressed`, at a countdown of at least 1. The press of a shift
button inverts its toggle; any other press reports a ButtonPress. -/
def Obligations.ScanStepFromWaitPressed : Prop :=
  ∀ (v : RowVec) (s : State) (k : Nat), s.scan.state = .waitPressed → k = s.scan.col * s.cfg.rows + s.scan.row →
    (2 ≤ s.scan.dcnt →
      exec (.scanStep v) s = .next { s with scan := { s.scan with dcnt := s.scan.dcnt - 1 } }) ∧
    (s.scan.dcnt = 1 → rowClass s.cfg.rows v ≠ .row s.scan.row →
      exec (.scanStep v) s = .next { s with
        scan := { s.scan with dcnt := s.cfg.debounceTicks, state := .multiPressed } }) ∧
    (s.scan.dcnt = 1 → rowClass s.cfg.rows v = .row s.scan.row →
      exec (.scanStep v) s = .next (State.emitOpt
        { s with
          scan := { s.scan with
            dcnt := 0, state := .pressed, lpcnt := s.cfg.longpressTicks
            bandShift := if k = 9 then !s.scan.bandShift else s.scan.bandShift
            encShift := if k = 27 then !s.scan.encShift else s.scan.encShift } }
        (if k = 9 ∨ k = 27 then none else s.scan.report s.cfg 3)))

/-- 41_scan_sequencer.md R159, R160, R161: the step from `Pressed`. -/
def Obligations.ScanStepFromPressed : Prop :=
  ∀ (v : RowVec) (s : State), s.scan.state = .pressed →
    (rowClass s.cfg.rows v = .row s.scan.row → s.scan.lpcnt = 0 → exec (.scanStep v) s = .next s) ∧
    (rowClass s.cfg.rows v = .row s.scan.row → s.scan.lpcnt = 1 →
      exec (.scanStep v) s = .next (State.emitOpt { s with scan := { s.scan with lpcnt := 0 } } (s.scan.report s.cfg 4))) ∧
    (rowClass s.cfg.rows v = .row s.scan.row → 2 ≤ s.scan.lpcnt →
      exec (.scanStep v) s = .next { s with scan := { s.scan with lpcnt := s.scan.lpcnt - 1 } }) ∧
    (rowClass s.cfg.rows v = .none →
      exec (.scanStep v) s = .next { s with
        scan := { s.scan with dcnt := s.cfg.debounceTicks, state := .waitReleased } }) ∧
    (rowClass s.cfg.rows v ≠ .row s.scan.row → rowClass s.cfg.rows v ≠ .none →
      exec (.scanStep v) s = .next (State.emitOpt
        { s with scan := { s.scan with dcnt := s.cfg.debounceTicks, state := .multiPressed } } (s.scan.report s.cfg 5)))

/-- 41_scan_sequencer.md R162, R163, R164: the step from `WaitReleased`, at a countdown of at least 1. -/
def Obligations.ScanStepFromWaitReleased : Prop :=
  ∀ (v : RowVec) (s : State), s.scan.state = .waitReleased →
    (2 ≤ s.scan.dcnt →
      exec (.scanStep v) s = .next { s with scan := { s.scan with dcnt := s.scan.dcnt - 1 } }) ∧
    (s.scan.dcnt = 1 → rowClass s.cfg.rows v = .none →
      exec (.scanStep v) s = .next (State.emitOpt
        { s with scan := { s.scan with dcnt := 0, state := .idle } } (s.scan.report s.cfg 5))) ∧
    (s.scan.dcnt = 1 → rowClass s.cfg.rows v = .row s.scan.row →
      exec (.scanStep v) s = .next { s with scan := { s.scan with dcnt := 0, state := .pressed } }) ∧
    (s.scan.dcnt = 1 → rowClass s.cfg.rows v ≠ .none → rowClass s.cfg.rows v ≠ .row s.scan.row →
      exec (.scanStep v) s = .next { s with
        scan := { s.scan with dcnt := s.cfg.debounceTicks, state := .multiPressed } })

/-- 41_scan_sequencer.md R165, R166: the step from the two multi states, at a countdown of at least 1. -/
def Obligations.ScanStepFromMultiStates : Prop :=
  ∀ (v : RowVec) (s : State), s.scan.state = .multiPressed ∨ s.scan.state = .waitMultiReleased →
    (2 ≤ s.scan.dcnt →
      exec (.scanStep v) s = .next { s with scan := { s.scan with dcnt := s.scan.dcnt - 1 } }) ∧
    (s.scan.dcnt = 1 → rowClass s.cfg.rows v ≠ .none →
      exec (.scanStep v) s = .next { s with
        scan := { s.scan with dcnt := s.cfg.debounceTicks, state := .multiPressed } }) ∧
    (s.scan.dcnt = 1 → rowClass s.cfg.rows v = .none → s.scan.state = .multiPressed →
      exec (.scanStep v) s = .next { s with
        scan := { s.scan with dcnt := s.cfg.debounceTicks, state := .waitMultiReleased } }) ∧
    (s.scan.dcnt = 1 → rowClass s.cfg.rows v = .none → s.scan.state = .waitMultiReleased →
      exec (.scanStep v) s = .next { s with scan := { s.scan with dcnt := 0, state := .idle } })

/-- 41_scan_sequencer.md R169, R172, R173, R174: what is reported for the held button of scan code `k`, where the table has
an entry for it. -/
def Obligations.ReportClassifiesTheHeldButton : Prop :=
  ∀ (x : Scanner) (c : Config) (kind : Kind) (k : Nat) (h : k + 32 * x.bandShift.toNat < 64) (e : Byte),
    k = x.col * c.rows + x.row →
    e = (if x.encShift = true ∧ c.reportTable[k + 32 * x.bandShift.toNat] = c.encShiftBtnCode then c.encShiftAltCode
      else c.reportTable[k + 32 * x.bandShift.toNat]) →
    x.report c kind =
      if k = 9 ∨ k = 27 ∨ e = 0x00 ∨ e = 0xFF then none else some { kind := kind, data := e }

/-- 41_scan_sequencer.md R150, R168: a scan step completes whatever the reading, reads only the sequencer, changes only it and
the queue, emits at most one event, and moves the column only from `Idle` on a reading with no row set. -/
def Obligations.ScanStepFrame : Prop :=
  ∀ (v : RowVec) (s : State), ∃ t, exec (.scanStep v) s = .next t ∧ t = { s with scan := t.scan, queue := t.queue } ∧
    (t.queue = s.queue ∨ ∃ e : Event, t.queue = s.queue.push e ∧ 3 ≤ e.kind.toNat ∧ e.kind.toNat ≤ 5 ∧ e.data ≠ 0 ∧ e.data ≠ 0xFF) ∧
    (¬ (s.scan.state = .idle ∧ rowClass s.cfg.rows v = .none) → t.scan.col = s.scan.col)

/-- 41_scan_sequencer.md R170, R171, R178: a toggle changes only where the press of its own scan code is confirmed, and a shift
button never reaches the queue: no step taken while scan code 9 or 27 is held emits anything. -/
def Obligations.ShiftButtonsAreNeverForwarded : Prop :=
  ∀ (v : RowVec) (s t : State) (k : Nat), k = s.scan.col * s.cfg.rows + s.scan.row → exec (.scanStep v) s = .next t →
    (k = 9 ∨ k = 27 → t.queue = s.queue) ∧
    (t.scan.bandShift ≠ s.scan.bandShift ↔ s.scan.state = .waitPressed ∧ t.scan.state = .pressed ∧ k = 9) ∧
    (t.scan.encShift ≠ s.scan.encShift ↔ s.scan.state = .waitPressed ∧ t.scan.state = .pressed ∧ k = 27)

/-- 41_scan_sequencer.md R177: in the two multi states nothing is ever emitted, and `Idle` is reached only from
`WaitMultiReleased`, on a reading with no row, at the end of a countdown that a reading with no row loaded. -/
def Obligations.MultiPressIsSilentUntilReleased : Prop :=
  ∀ (v : RowVec) (s t : State), s.scan.state = .multiPressed ∨ s.scan.state = .waitMultiReleased →
    exec (.scanStep v) s = .next t →
    t.queue = s.queue ∧
    (t.scan.state = .idle → s.scan.state = .waitMultiReleased ∧ s.scan.dcnt ≤ 1 ∧ rowClass s.cfg.rows v = .none) ∧
    (t.scan.state = .waitMultiReleased → s.scan.state = .multiPressed →
      s.scan.dcnt ≤ 1 ∧ rowClass s.cfg.rows v = .none ∧ t.scan.dcnt = s.cfg.debounceTicks) ∧
    t.scan.state ≠ .waitPressed ∧ t.scan.state ≠ .pressed ∧ t.scan.state ≠ .waitReleased

/-- 41_scan_sequencer.md R176: the single-press law. From `Idle`, a button that is mapped and no shift button, whose row is the
only one asserted for `DEBOUNCE_TICKS + 1 + m` readings and which is then clear for `DEBOUNCE_TICKS + 1 + j` readings, gives
exactly one Press, one LongPress if and only if it stayed asserted for `LONGPRESS_TICKS` readings after the Press, and exactly
one Release, in this order, all with the button's report code; the sequencer is back in `Idle`, `j` columns further on. -/
def Obligations.OnePressOneRelease : Prop :=
  ∀ (s : State) (v clear : RowVec) (r m j : Nat) (x : Scanner) (code : Byte),
    ConfigLegal s.cfg → s.scan.state = .idle → s.scan.col < s.cfg.cols →
    rowClass s.cfg.rows v = .row r → rowClass s.cfg.rows clear = .none →
    x = { s.scan with row := r } → x.report s.cfg 3 = some { kind := 3, data := code } →
    ∃ t, runOps (List.replicate (s.cfg.debounceTicks + 1 + m) (.scanStep v) ++
        List.replicate (s.cfg.debounceTicks + 1 + j) (.scanStep clear)) s = .next t ∧
      t.scan.state = .idle ∧ t.scan.col = (s.scan.col + j) % s.cfg.cols ∧
      t.queue = ([{ kind := 3, data := code }] ++
          (if s.cfg.longpressTicks ≤ m then [{ kind := 4, data := code }] else []) ++
          [{ kind := 5, data := code }] : List Event).foldl Queue.push s.queue

/-! ### The LED projection (43_led_projection.md) -/

/-- 43_led_projection.md R211, R212: every LED output bit, and nothing else changes. -/
def Obligations.LedProjectionDrivesEveryBit : Prop :=
  ∀ s : State, ∃ t, exec .ledProject s = .next t ∧ t = { s with ledOut := t.ledOut } ∧
    ∀ i, i ≤ 10 → t.ledOut.getLsbD i = s.ledBit i

/-! ### The tick scheduler (45_tick_scheduler.md) -/

/-- 45_tick_scheduler.md R252: the sampling sub-step latches the reading that the environment supplies, moves to `T1_PHASE`,
and changes nothing else of the block. The next reading to come is used up. -/
def Obligations.TickSampleLatchesTheReading : Prop :=
  ∀ (s : State) (r : Reading) (rs : List Reading), s.world.readings = r :: rs →
    ∃ t, exec .tickSample s = .next t ∧ t = { s with latch := t.latch, tphase := .t1Phase, world := t.world } ∧
      t.world = { s.world with readings := rs, draws := s.world.draws + 1 } ∧
      (∀ ch : Fin 10, t.latch.smp[ch.castSucc] = r.phase[ch.castSucc]) ∧
      t.latch.smp[10] = (if s.cfg.vfoMode = .polled then r.phase[10] else s.latch.smp[10]) ∧
      ∀ i, t.latch.rowsmp.getLsbD i = (decide (i < s.cfg.rows) && r.rows.getLsbD i)

/-- 45_tick_scheduler.md R252, where no reading is supplied: the sub-step completes, with free values for the readings. It
holds for every value of the draws. -/
def Obligations.TickSampleCompletesOnDraws : Prop :=
  ∀ s : State, s.world.readings = [] →
    ∃ t, exec .tickSample s = .next t ∧ t = { s with latch := t.latch, tphase := .t1Phase, world := t.world } ∧
      t.world = { s.world with draws := s.world.draws + 1 } ∧
      (∀ ch : Fin 10, t.latch.smp[ch.castSucc] = Config.freePhase s.world.draws ch.val) ∧
      t.latch.smp[10] = (if s.cfg.vfoMode = .polled then Config.freePhase s.world.draws 10 else s.latch.smp[10]) ∧
      ∀ i, t.latch.rowsmp.getLsbD i = (decide (i < s.cfg.rows) && (Config.freeRows s.world.draws).getLsbD i)

/-- 45_tick_scheduler.md R251, R254, R255, R256: a step of the tick agent runs the operation that its position selects, with
the act used up, and then moves to the next position. `T1_PHASE` is the next statement's. -/
def Obligations.TickStepRunsItsSubStep : Prop :=
  ∀ (s u : State), s.tickTurn → u = { s with world := { s.world with inbox := s.world.inbox.tail } } →
    (s.tphase = .wait → step s = .next { u with tphase := .t0Sample }) ∧
    (s.tphase = .t0Sample → ∃ t, exec .tickSample u = .next t ∧ step s = .next { t with tphase := .t1Phase }) ∧
    (s.tphase = .t2Decode 0 → ∃ t, exec .vfoService u = .next t ∧ step s = .next { t with tphase := .t2Decode 1 }) ∧
    (∀ ch : Fin 10, s.tphase = .t2Decode ch.succ → ∃ t, exec (.encService ch) u = .next t ∧
      step s = .next { t with tphase := if h : ch.val + 2 < 11 then .t2Decode ⟨ch.val + 2, h⟩ else .t3Scan }) ∧
    (s.tphase = .t3Scan → ∃ t, exec (.scanStep s.latch.rowsmp) u = .next t ∧ step s = .next { t with tphase := .t4Led }) ∧
    (s.tphase = .t4Led → ∃ t, exec .ledProject u = .next t ∧ step s = .next { t with tphase := .wait })

/-- 45_tick_scheduler.md R253: at `T1_PHASE` one step services every polled channel once, from the samples of this tick: each
ordinary channel, and V only in `POLLED` mode. When the tick agent moves is the model's choice (log 1). -/
def Obligations.PhaseSubStepServicesEveryPolledChannel : Prop :=
  ∀ s : State, s.tickTurn → s.tphase = .t1Phase →
    ∃ t, step s = .next t ∧
      t = { s with
        dec := t.dec, tphase := .t2Decode 0, world := { s.world with inbox := s.world.inbox.tail } } ∧
      t.dec.vfoRaw = s.dec.vfoRaw ∧
      ∀ ch : Chan,
        (ch ≠ 10 ∨ s.cfg.vfoMode = .polled →
          t.dec.prev[ch] = s.latch.smp[ch] ∧
          t.dec.acc[ch] =
            Int.bmod (s.dec.acc[ch] + s.cfg.quadTable[(s.latch.smp[ch] ++ s.dec.prev[ch]).toNat]) (2 ^ s.cfg.accWidth)) ∧
        (ch = 10 → s.cfg.vfoMode = .edge → t.dec.prev[ch] = s.dec.prev[ch] ∧ t.dec.acc[ch] = s.dec.acc[ch])

/-- 00_scope.md R5, 44_bus_protocol.md R221, R228: a step at which a transaction is the next act runs the decoded operation on
the state with that act used up. The same for an edge and for power-on. -/
def Obligations.StepRunsTheDecodedOperation : Prop :=
  ∀ (s u : State) (acts : List Act), u = { s with world := { s.world with inbox := acts } } →
    (∀ b i, s.world.inbox = .write b :: acts → decode s.cfg.regMap (.write b) = .ok i → step s = exec i u) ∧
    (∀ n i, s.world.inbox = .read n :: acts → decode s.cfg.regMap (.read s.bus.regsel n) = .ok i → step s = exec i u) ∧
    (∀ a b, s.world.inbox = .edge a b :: acts → step s = exec (.vfoEdge a b) u) ∧
    (s.world.inbox = .powerOn :: acts → step s = exec .reset u)

/-- 45_tick_scheduler.md R258, R259: every tick completes. From `WAIT` with the tick agent moving, sixteen steps are one tick
and end in `WAIT`; they append at most 12 events to those held and remove none. That no other agent moves between them is the
model's reading of an empty schedule (log 1). -/
def Obligations.EveryTickCompletesWithAtMostTwelveEvents : Prop :=
  ∀ s : State, s.world.inbox = [] → s.tphase = .wait →
    ∃ t es, Sys2Proof.core.run 16 s = .next t ∧ t.tphase = .wait ∧
      t.queue.contents = s.queue.contents ++ es ∧ es.length ≤ 12

/-! ### Exceptions, privilege and whole-machine rules (10_state.md, 60_exceptions.md) -/

/-- 60_exceptions.md R270, R275: no step faults, and a step is refused only for a transaction of zero bytes or for RESET with
an illegal configuration. -/
def Obligations.StepsCompleteOnAdmittedInputs : Prop :=
  ∀ s : State,
    (∀ acts, s.world.inbox ≠ .write [] :: acts) → (∀ acts, s.world.inbox ≠ .read 0 :: acts) →
    (∀ acts, s.world.inbox = .powerOn :: acts → ConfigLegal s.cfg) →
    ∃ t, step s = .next t

/-- 00_scope.md R7, 40_quadrature.md R138: no step changes the configuration. -/
def Obligations.ConfigurationIsFixedFromReset : Prop :=
  ∀ s t : State, step s = .next t → t.cfg = s.cfg

/-- 10_state.md R31: the tick agent's position changes only by its own step, to the next position, or by power-on. That the tick
agent moves where no act is scheduled is the model's choice (log 1). -/
def Obligations.OnlyTheTickAgentMovesTphase : Prop :=
  ∀ s t : State, step s = .next t → (∀ acts, s.world.inbox ≠ .powerOn :: acts) →
    t.tphase = s.tphase ∧ ¬ s.tickTurn ∨ t.tphase = nextTphase s.tphase ∧ s.tickTurn

/-- 10_state.md R45, R46, R47, 44_bus_protocol.md R230: whoever moves, but for power-on, `regsel` changes only in a write
transaction, `ledHost` only in one of three bytes or more to LED, and `led_out` only at the tick's LED sub-step. That the tick
agent moves where no act is scheduled is the model's choice (log 1). -/
def Obligations.RegistersChangeOnlyByTheirWriters : Prop :=
  ∀ s t : State, step s = .next t → (∀ acts, s.world.inbox ≠ .powerOn :: acts) →
    (t.bus.regsel ≠ s.bus.regsel → ∃ b bs acts, s.world.inbox = .write (b :: bs) :: acts ∧ t.bus.regsel = b) ∧
    (t.bus.ledHost ≠ s.bus.ledHost →
      ∃ lo hi bs acts, s.world.inbox = .write (s.cfg.regMap.led :: lo :: hi :: bs) :: acts ∧ t.bus.ledHost = hi ++ lo) ∧
    (t.ledOut ≠ s.ledOut → s.tickTurn ∧ s.tphase = .t4Led)

/-- 10_state.md R44, 42_event_queue.md R200: the ready line falls only where a read leaves the queue empty, where ID/Version or
HW-Version is read, or at power-on; it rises only where an event is appended, in the tick agent's step. That the tick agent
moves where no act is scheduled is the model's choice (log 1). -/
def Obligations.ReadyLineChangesOnlyByItsRules : Prop :=
  ∀ s t : State, step s = .next t →
    (s.queue.ready = true → t.queue.ready = false →
      (∃ n acts, s.world.inbox = .read n :: acts ∧
        (s.bus.regsel = s.cfg.regMap.id ∨ s.bus.regsel = s.cfg.regMap.hw ∨
          s.bus.regsel = s.cfg.regMap.event ∧ t.queue.contents = [])) ∨
      ∃ acts, s.world.inbox = .powerOn :: acts) ∧
    (s.queue.ready = false → t.queue.ready = true →
      s.tickTurn ∧ ∃ e, t.queue.contents = s.queue.contents ++ [e])

/-- 60_exceptions.md R280: a VFO edge and a bus transaction share no state, so their two orders end in the same state. -/
def Obligations.EdgesAndTransactionsCommute : Prop :=
  ∀ (s : State) (a b : Bool) (f : Frame) (i : Instr), decode s.cfg.regMap f = .ok i →
    runOps [.vfoEdge a b, i] s = runOps [i, .vfoEdge a b] s

/-- 10_state.md R52, 40_quadrature.md R137, 30_encoding.md R99, R100: every step keeps the invariants. -/
def Obligations.EveryStepKeepsTheInvariants : Prop :=
  ∀ s t : State, Inv s → step s = .next t → Inv t

/-- 10_state.md R52: the invariants hold right after reset. The configuration of `State.reset` is the model's choice (log 5),
and `prev`, `led_out`, `smp` and `rowsmp` there are too (log 6, log 7). -/
def Obligations.InvariantsHoldAtReset : Prop := Inv State.reset

/-! ### Reset (70_reset_and_hazards.md) -/

/-- 70_reset_and_hazards.md R300, 00_scope.md R8: RESET is refused exactly for a configuration that breaks a constraint. -/
def Obligations.ResetRefusesIllegalConfigurations : Prop :=
  ∀ s : State, exec .reset s = .refused .configuration ↔ ¬ ConfigLegal s.cfg

/-- 70_reset_and_hazards.md R300, R302: RESET's whole effect on the block, for a legal configuration. `prev` takes the reading
that the environment supplies, or free values where it supplies none. `led_out`, `smp` and `rowsmp` are left unspecified:
nothing is said of them. -/
def Obligations.ResetBringsTheInitialState : Prop :=
  ∀ s : State, ConfigLegal s.cfg →
    ∃ t, exec .reset s = .next t ∧ t.cfg = s.cfg ∧
      (∀ ch : Chan, t.dec.acc[ch] = 0) ∧ t.dec.vfoRaw = 0 ∧
      (∀ ch : Chan, ch ≠ 10 ∨ s.cfg.vfoMode = .polled →
        t.dec.prev[ch] = match s.world.readings with
          | [] => Config.freePhase s.world.draws ch.val
          | r :: _ => r.phase[ch]) ∧
      t.scan = { state := .idle, col := 0, row := 0, dcnt := 0, lpcnt := 0, bandShift := false, encShift := false } ∧
      (∀ i : Fin 16, t.queue.slot[i] = { kind := 0, data := 0 }) ∧ t.queue.w = 0 ∧ t.queue.r = 0 ∧
      t.queue.ready = false ∧ t.bus = { regsel := s.cfg.regMap.id, ledHost := 0x0000 } ∧ t.tphase = .wait ∧
      t.world = { s.world with readings := s.world.readings.tail, draws := s.world.draws + 1 }

/-- 10_state.md R53: the values that the table gives for the state after reset, in `State.reset`; `prev`, `led_out`, `smp` and
`rowsmp` are left out, since R53 gives them no fixed value (log 6, log 7). -/
def Obligations.ResetStateHoldsTheResetValues : Prop :=
  (∀ ch : Chan, State.reset.dec.acc[ch] = 0) ∧ State.reset.dec.vfoRaw = 0 ∧
  State.reset.scan = { state := .idle, col := 0, row := 0, dcnt := 0, lpcnt := 0, bandShift := false, encShift := false } ∧
  (∀ i : Fin 16, State.reset.queue.slot[i] = { kind := 0, data := 0 }) ∧ State.reset.queue.w = 0 ∧
  State.reset.queue.r = 0 ∧ State.reset.queue.ready = false ∧
  State.reset.bus = { regsel := 0x00, ledHost := 0x0000 } ∧ State.reset.tphase = .wait

/-! ### The width of accumulators, and the order of a tick's events -/

/-- 00_scope.md R10: `wrap_N(v)` is the one value congruent to `v` modulo 2^N in the signed range of N bits. -/
def Obligations.WrapIsTheSignedRepresentative : Prop :=
  ∀ (n : Nat) (v r : Int), wrapN n v = r ↔ (v ≡ r [ZMOD 2 ^ n] ∧ -2 ^ n ≤ 2 * r ∧ 2 * r < 2 ^ n)

/-- 45_tick_scheduler.md R259: the order of a tick's events. Over the sixteen steps of a tick from `WAIT`, the events appended are
at most one VFOStep, then EncoderStep events of channels in ascending order under the identifiers that `encShift` selects, then
at most one button event. That no other agent moves between the steps is the model's reading of an empty schedule (log 1). -/
def Obligations.EventsOfATickComeInOrder : Prop :=
  ∀ s : State, s.world.inbox = [] → s.tphase = .wait →
    ∃ (t : State) (vs es bs : List Event) (chs : List (Fin 10)),
      Sys2Proof.core.run 16 s = .next t ∧ t.queue.contents = s.queue.contents ++ vs ++ es ++ bs ∧
      vs.length ≤ 1 ∧ (∀ e ∈ vs, e.kind = 1) ∧
      chs.Pairwise (· < ·) ∧
      List.Forall₂ (fun (ch : Fin 10) (e : Event) => e.kind = 2 ∧ e.data.extractLsb' 4 4 =
        BitVec.ofNat 4 (if s.scan.encShift then s.cfg.encIdMap[1][ch] else s.cfg.encIdMap[0][ch])) chs es ∧
      bs.length ≤ 1 ∧ (∀ e ∈ bs, 3 ≤ e.kind.toNat ∧ e.kind.toNat ≤ 5)
end

