-- ==== Sys2Proof/Laws/State.lean ====
section
/-! SUPPORT. For each update of a part of the state, what every field reads afterwards: simp lemmas, each true by rfl, so that
no later proof unfolds a record update. -/

namespace Sys2Proof.Machine

@[simp] theorem State.setDec_cfg (s : State) (d : Decoder) : (s.setDec d).cfg = s.cfg := rfl
@[simp] theorem State.setDec_dec (s : State) (d : Decoder) : (s.setDec d).dec = d := rfl
@[simp] theorem State.setDec_scan (s : State) (d : Decoder) : (s.setDec d).scan = s.scan := rfl
@[simp] theorem State.setDec_queue (s : State) (d : Decoder) : (s.setDec d).queue = s.queue := rfl
@[simp] theorem State.setDec_bus (s : State) (d : Decoder) : (s.setDec d).bus = s.bus := rfl
@[simp] theorem State.setDec_ledOut (s : State) (d : Decoder) : (s.setDec d).ledOut = s.ledOut := rfl
@[simp] theorem State.setDec_latch (s : State) (d : Decoder) : (s.setDec d).latch = s.latch := rfl
@[simp] theorem State.setDec_tphase (s : State) (d : Decoder) : (s.setDec d).tphase = s.tphase := rfl
@[simp] theorem State.setDec_world (s : State) (d : Decoder) : (s.setDec d).world = s.world := rfl

@[simp] theorem State.setScan_cfg (s : State) (x : Scanner) : (s.setScan x).cfg = s.cfg := rfl
@[simp] theorem State.setScan_dec (s : State) (x : Scanner) : (s.setScan x).dec = s.dec := rfl
@[simp] theorem State.setScan_scan (s : State) (x : Scanner) : (s.setScan x).scan = x := rfl
@[simp] theorem State.setScan_queue (s : State) (x : Scanner) : (s.setScan x).queue = s.queue := rfl
@[simp] theorem State.setScan_bus (s : State) (x : Scanner) : (s.setScan x).bus = s.bus := rfl
@[simp] theorem State.setScan_ledOut (s : State) (x : Scanner) : (s.setScan x).ledOut = s.ledOut := rfl
@[simp] theorem State.setScan_latch (s : State) (x : Scanner) : (s.setScan x).latch = s.latch := rfl
@[simp] theorem State.setScan_tphase (s : State) (x : Scanner) : (s.setScan x).tphase = s.tphase := rfl
@[simp] theorem State.setScan_world (s : State) (x : Scanner) : (s.setScan x).world = s.world := rfl

@[simp] theorem State.setQueue_cfg (s : State) (q : Queue) : (s.setQueue q).cfg = s.cfg := rfl
@[simp] theorem State.setQueue_dec (s : State) (q : Queue) : (s.setQueue q).dec = s.dec := rfl
@[simp] theorem State.setQueue_scan (s : State) (q : Queue) : (s.setQueue q).scan = s.scan := rfl
@[simp] theorem State.setQueue_queue (s : State) (q : Queue) : (s.setQueue q).queue = q := rfl
@[simp] theorem State.setQueue_bus (s : State) (q : Queue) : (s.setQueue q).bus = s.bus := rfl
@[simp] theorem State.setQueue_ledOut (s : State) (q : Queue) : (s.setQueue q).ledOut = s.ledOut := rfl
@[simp] theorem State.setQueue_latch (s : State) (q : Queue) : (s.setQueue q).latch = s.latch := rfl
@[simp] theorem State.setQueue_tphase (s : State) (q : Queue) : (s.setQueue q).tphase = s.tphase := rfl
@[simp] theorem State.setQueue_world (s : State) (q : Queue) : (s.setQueue q).world = s.world := rfl

@[simp] theorem State.setBus_cfg (s : State) (b : Bus) : (s.setBus b).cfg = s.cfg := rfl
@[simp] theorem State.setBus_dec (s : State) (b : Bus) : (s.setBus b).dec = s.dec := rfl
@[simp] theorem State.setBus_scan (s : State) (b : Bus) : (s.setBus b).scan = s.scan := rfl
@[simp] theorem State.setBus_queue (s : State) (b : Bus) : (s.setBus b).queue = s.queue := rfl
@[simp] theorem State.setBus_bus (s : State) (b : Bus) : (s.setBus b).bus = b := rfl
@[simp] theorem State.setBus_ledOut (s : State) (b : Bus) : (s.setBus b).ledOut = s.ledOut := rfl
@[simp] theorem State.setBus_latch (s : State) (b : Bus) : (s.setBus b).latch = s.latch := rfl
@[simp] theorem State.setBus_tphase (s : State) (b : Bus) : (s.setBus b).tphase = s.tphase := rfl
@[simp] theorem State.setBus_world (s : State) (b : Bus) : (s.setBus b).world = s.world := rfl

@[simp] theorem State.setLedOut_cfg (s : State) (v : LedPort) : (s.setLedOut v).cfg = s.cfg := rfl
@[simp] theorem State.setLedOut_dec (s : State) (v : LedPort) : (s.setLedOut v).dec = s.dec := rfl
@[simp] theorem State.setLedOut_scan (s : State) (v : LedPort) : (s.setLedOut v).scan = s.scan := rfl
@[simp] theorem State.setLedOut_queue (s : State) (v : LedPort) : (s.setLedOut v).queue = s.queue := rfl
@[simp] theorem State.setLedOut_bus (s : State) (v : LedPort) : (s.setLedOut v).bus = s.bus := rfl
@[simp] theorem State.setLedOut_ledOut (s : State) (v : LedPort) : (s.setLedOut v).ledOut = v := rfl
@[simp] theorem State.setLedOut_latch (s : State) (v : LedPort) : (s.setLedOut v).latch = s.latch := rfl
@[simp] theorem State.setLedOut_tphase (s : State) (v : LedPort) : (s.setLedOut v).tphase = s.tphase := rfl
@[simp] theorem State.setLedOut_world (s : State) (v : LedPort) : (s.setLedOut v).world = s.world := rfl

@[simp] theorem State.setLatch_cfg (s : State) (l : Latches) : (s.setLatch l).cfg = s.cfg := rfl
@[simp] theorem State.setLatch_dec (s : State) (l : Latches) : (s.setLatch l).dec = s.dec := rfl
@[simp] theorem State.setLatch_scan (s : State) (l : Latches) : (s.setLatch l).scan = s.scan := rfl
@[simp] theorem State.setLatch_queue (s : State) (l : Latches) : (s.setLatch l).queue = s.queue := rfl
@[simp] theorem State.setLatch_bus (s : State) (l : Latches) : (s.setLatch l).bus = s.bus := rfl
@[simp] theorem State.setLatch_ledOut (s : State) (l : Latches) : (s.setLatch l).ledOut = s.ledOut := rfl
@[simp] theorem State.setLatch_latch (s : State) (l : Latches) : (s.setLatch l).latch = l := rfl
@[simp] theorem State.setLatch_tphase (s : State) (l : Latches) : (s.setLatch l).tphase = s.tphase := rfl
@[simp] theorem State.setLatch_world (s : State) (l : Latches) : (s.setLatch l).world = s.world := rfl

@[simp] theorem State.setTphase_cfg (s : State) (t : TPhase) : (s.setTphase t).cfg = s.cfg := rfl
@[simp] theorem State.setTphase_dec (s : State) (t : TPhase) : (s.setTphase t).dec = s.dec := rfl
@[simp] theorem State.setTphase_scan (s : State) (t : TPhase) : (s.setTphase t).scan = s.scan := rfl
@[simp] theorem State.setTphase_queue (s : State) (t : TPhase) : (s.setTphase t).queue = s.queue := rfl
@[simp] theorem State.setTphase_bus (s : State) (t : TPhase) : (s.setTphase t).bus = s.bus := rfl
@[simp] theorem State.setTphase_ledOut (s : State) (t : TPhase) : (s.setTphase t).ledOut = s.ledOut := rfl
@[simp] theorem State.setTphase_latch (s : State) (t : TPhase) : (s.setTphase t).latch = s.latch := rfl
@[simp] theorem State.setTphase_tphase (s : State) (t : TPhase) : (s.setTphase t).tphase = t := rfl
@[simp] theorem State.setTphase_world (s : State) (t : TPhase) : (s.setTphase t).world = s.world := rfl

@[simp] theorem State.setWorld_cfg (s : State) (w : World) : (s.setWorld w).cfg = s.cfg := rfl
@[simp] theorem State.setWorld_dec (s : State) (w : World) : (s.setWorld w).dec = s.dec := rfl
@[simp] theorem State.setWorld_scan (s : State) (w : World) : (s.setWorld w).scan = s.scan := rfl
@[simp] theorem State.setWorld_queue (s : State) (w : World) : (s.setWorld w).queue = s.queue := rfl
@[simp] theorem State.setWorld_bus (s : State) (w : World) : (s.setWorld w).bus = s.bus := rfl
@[simp] theorem State.setWorld_ledOut (s : State) (w : World) : (s.setWorld w).ledOut = s.ledOut := rfl
@[simp] theorem State.setWorld_latch (s : State) (w : World) : (s.setWorld w).latch = s.latch := rfl
@[simp] theorem State.setWorld_tphase (s : State) (w : World) : (s.setWorld w).tphase = s.tphase := rfl
@[simp] theorem State.setWorld_world (s : State) (w : World) : (s.setWorld w).world = w := rfl

/-! ### Updates of the parts -/

@[simp] theorem Decoder.setAcc_acc (d : Decoder) (ch : Chan) (a : Int) : (d.setAcc ch a).acc = d.acc.set ch.val a := rfl
@[simp] theorem Decoder.setAcc_prev (d : Decoder) (ch : Chan) (a : Int) : (d.setAcc ch a).prev = d.prev := rfl
@[simp] theorem Decoder.setAcc_vfoRaw (d : Decoder) (ch : Chan) (a : Int) : (d.setAcc ch a).vfoRaw = d.vfoRaw := rfl
@[simp] theorem Decoder.setPrev_acc (d : Decoder) (ch : Chan) (p : Phase) : (d.setPrev ch p).acc = d.acc := rfl
@[simp] theorem Decoder.setPrev_prev (d : Decoder) (ch : Chan) (p : Phase) : (d.setPrev ch p).prev = d.prev.set ch.val p := rfl
@[simp] theorem Decoder.setPrev_vfoRaw (d : Decoder) (ch : Chan) (p : Phase) : (d.setPrev ch p).vfoRaw = d.vfoRaw := rfl

@[simp] theorem Queue.clearReady_slot (q : Queue) : q.clearReady.slot = q.slot := rfl
@[simp] theorem Queue.clearReady_w (q : Queue) : q.clearReady.w = q.w := rfl
@[simp] theorem Queue.clearReady_r (q : Queue) : q.clearReady.r = q.r := rfl
@[simp] theorem Queue.clearReady_ready (q : Queue) : q.clearReady.ready = false := rfl

@[simp] theorem World.afterReading_inbox (w : World) : w.afterReading.inbox = w.inbox := rfl
@[simp] theorem World.afterReading_readings (w : World) : w.afterReading.readings = w.readings.tail := rfl
@[simp] theorem World.afterReading_draws (w : World) : w.afterReading.draws = w.draws + 1 := rfl
@[simp] theorem World.afterReading_resp (w : World) : w.afterReading.resp = w.resp := rfl
@[simp] theorem World.afterReading_retSteps (w : World) : w.afterReading.retSteps = w.retSteps := rfl
@[simp] theorem World.afterReading_retWord (w : World) : w.afterReading.retWord = w.retWord := rfl

@[simp] theorem State.emit_cfg (s : State) (e : Event) : (s.emit e).cfg = s.cfg := rfl
@[simp] theorem State.emit_dec (s : State) (e : Event) : (s.emit e).dec = s.dec := rfl
@[simp] theorem State.emit_scan (s : State) (e : Event) : (s.emit e).scan = s.scan := rfl
@[simp] theorem State.emit_queue (s : State) (e : Event) : (s.emit e).queue = s.queue.push e := rfl
@[simp] theorem State.emit_bus (s : State) (e : Event) : (s.emit e).bus = s.bus := rfl
@[simp] theorem State.emit_ledOut (s : State) (e : Event) : (s.emit e).ledOut = s.ledOut := rfl
@[simp] theorem State.emit_latch (s : State) (e : Event) : (s.emit e).latch = s.latch := rfl
@[simp] theorem State.emit_tphase (s : State) (e : Event) : (s.emit e).tphase = s.tphase := rfl
@[simp] theorem State.emit_world (s : State) (e : Event) : (s.emit e).world = s.world := rfl

@[simp] theorem State.select_cfg (s : State) (sel : Byte) : (s.select sel).cfg = s.cfg := rfl
@[simp] theorem State.select_dec (s : State) (sel : Byte) : (s.select sel).dec = s.dec := rfl
@[simp] theorem State.select_scan (s : State) (sel : Byte) : (s.select sel).scan = s.scan := rfl
@[simp] theorem State.select_queue (s : State) (sel : Byte) : (s.select sel).queue = s.queue := rfl
@[simp] theorem State.select_bus (s : State) (sel : Byte) : (s.select sel).bus = { s.bus with regsel := sel } := rfl
@[simp] theorem State.select_ledOut (s : State) (sel : Byte) : (s.select sel).ledOut = s.ledOut := rfl
@[simp] theorem State.select_latch (s : State) (sel : Byte) : (s.select sel).latch = s.latch := rfl
@[simp] theorem State.select_tphase (s : State) (sel : Byte) : (s.select sel).tphase = s.tphase := rfl
@[simp] theorem State.select_world (s : State) (sel : Byte) : (s.select sel).world = s.world := rfl

@[simp] theorem State.emitOpt_cfg (s : State) (e : Option Event) : (s.emitOpt e).cfg = s.cfg := by cases e <;> rfl
@[simp] theorem State.emitOpt_dec (s : State) (e : Option Event) : (s.emitOpt e).dec = s.dec := by cases e <;> rfl
@[simp] theorem State.emitOpt_scan (s : State) (e : Option Event) : (s.emitOpt e).scan = s.scan := by cases e <;> rfl
@[simp] theorem State.emitOpt_bus (s : State) (e : Option Event) : (s.emitOpt e).bus = s.bus := by cases e <;> rfl
@[simp] theorem State.emitOpt_ledOut (s : State) (e : Option Event) : (s.emitOpt e).ledOut = s.ledOut := by cases e <;> rfl
@[simp] theorem State.emitOpt_latch (s : State) (e : Option Event) : (s.emitOpt e).latch = s.latch := by cases e <;> rfl
@[simp] theorem State.emitOpt_tphase (s : State) (e : Option Event) : (s.emitOpt e).tphase = s.tphase := by cases e <;> rfl
@[simp] theorem State.emitOpt_world (s : State) (e : Option Event) : (s.emitOpt e).world = s.world := by cases e <;> rfl
@[simp] theorem State.emitOpt_none (s : State) : s.emitOpt none = s := rfl
@[simp] theorem State.emitOpt_some (s : State) (e : Event) : s.emitOpt (some e) = s.emit e := rfl

@[simp] theorem State.respond_cfg (s : State) (w : Word) (n : Nat) : (s.respond w n).cfg = s.cfg := rfl
@[simp] theorem State.respond_dec (s : State) (w : Word) (n : Nat) : (s.respond w n).dec = s.dec := rfl
@[simp] theorem State.respond_scan (s : State) (w : Word) (n : Nat) : (s.respond w n).scan = s.scan := rfl
@[simp] theorem State.respond_queue (s : State) (w : Word) (n : Nat) : (s.respond w n).queue = s.queue := rfl
@[simp] theorem State.respond_bus (s : State) (w : Word) (n : Nat) : (s.respond w n).bus = s.bus := rfl
@[simp] theorem State.respond_ledOut (s : State) (w : Word) (n : Nat) : (s.respond w n).ledOut = s.ledOut := rfl
@[simp] theorem State.respond_latch (s : State) (w : Word) (n : Nat) : (s.respond w n).latch = s.latch := rfl
@[simp] theorem State.respond_tphase (s : State) (w : Word) (n : Nat) : (s.respond w n).tphase = s.tphase := rfl
@[simp] theorem State.respond_world (s : State) (w : Word) (n : Nat) : (s.respond w n).world = { s.world with resp := responseBytes w s.world.draws n, draws := s.world.draws + 1 } := rfl

@[simp] theorem State.consume_cfg (s : State) (ch : Chan) (lo hi : Int) : (s.consume ch lo hi).2.cfg = s.cfg := rfl
@[simp] theorem State.consume_dec (s : State) (ch : Chan) (lo hi : Int) : (s.consume ch lo hi).2.dec = s.dec.setAcc ch (consumed (divisor s.cfg ch) lo hi s.dec.acc[ch]).2 := rfl
@[simp] theorem State.consume_scan (s : State) (ch : Chan) (lo hi : Int) : (s.consume ch lo hi).2.scan = s.scan := rfl
@[simp] theorem State.consume_queue (s : State) (ch : Chan) (lo hi : Int) : (s.consume ch lo hi).2.queue = s.queue := rfl
@[simp] theorem State.consume_bus (s : State) (ch : Chan) (lo hi : Int) : (s.consume ch lo hi).2.bus = s.bus := rfl
@[simp] theorem State.consume_ledOut (s : State) (ch : Chan) (lo hi : Int) : (s.consume ch lo hi).2.ledOut = s.ledOut := rfl
@[simp] theorem State.consume_latch (s : State) (ch : Chan) (lo hi : Int) : (s.consume ch lo hi).2.latch = s.latch := rfl
@[simp] theorem State.consume_tphase (s : State) (ch : Chan) (lo hi : Int) : (s.consume ch lo hi).2.tphase = s.tphase := rfl
@[simp] theorem State.consume_world (s : State) (ch : Chan) (lo hi : Int) : (s.consume ch lo hi).2.world = s.world := rfl
@[simp] theorem State.consume_steps (s : State) (ch : Chan) (lo hi : Int) :
    (s.consume ch lo hi).1 = (consumed (divisor s.cfg ch) lo hi s.dec.acc[ch]).1 := rfl

@[simp] theorem State.popInbox_cfg (s : State) : s.popInbox.cfg = s.cfg := rfl
@[simp] theorem State.popInbox_dec (s : State) : s.popInbox.dec = s.dec := rfl
@[simp] theorem State.popInbox_scan (s : State) : s.popInbox.scan = s.scan := rfl
@[simp] theorem State.popInbox_queue (s : State) : s.popInbox.queue = s.queue := rfl
@[simp] theorem State.popInbox_bus (s : State) : s.popInbox.bus = s.bus := rfl
@[simp] theorem State.popInbox_ledOut (s : State) : s.popInbox.ledOut = s.ledOut := rfl
@[simp] theorem State.popInbox_latch (s : State) : s.popInbox.latch = s.latch := rfl
@[simp] theorem State.popInbox_tphase (s : State) : s.popInbox.tphase = s.tphase := rfl
@[simp] theorem State.popInbox_world (s : State) : s.popInbox.world = { s.world with inbox := s.world.inbox.tail } := rfl

end Sys2Proof.Machine
end

