-- ==== Sys2Proof/Laws/Ops.lean ====
section
/-! SUPPORT. For each shared operation, what it can do, said once; later proofs cite these and do not unfold it. -/

namespace Sys2Proof.Machine

/-! ### Integers and accumulators -/

theorem clamp_le (v : Int) {lo hi : Int} (h : lo ≤ hi) : lo ≤ clamp v lo hi ∧ clamp v lo hi ≤ hi := by
  unfold clamp; omega

theorem clamp_of_mem {v lo hi : Int} (h₁ : lo ≤ v) (h₂ : v ≤ hi) : clamp v lo hi = v := by
  unfold clamp; omega

/-- What `wrap_N` answers: a value congruent to its argument, in the signed range of `N` bits (00_scope.md R10). -/
theorem wrapN_spec (n : Nat) (v : Int) : (2 : Int) ^ n ∣ v - wrapN n v ∧ Fits n (wrapN n v) := by
  have hpos : 0 < 2 ^ n := Nat.two_pow_pos n
  have hcast : ((2 ^ n : Nat) : Int) = (2 : Int) ^ n := by push_cast; rfl
  refine ⟨?_, ?_⟩
  · rw [← hcast]
    exact Int.dvd_self_sub_bmod
  · have h₁ := Int.le_bmod (x := v) hpos
    have h₂ := Int.bmod_lt (x := v) hpos
    unfold Fits wrapN
    rw [← hcast]
    omega

/-- A value in range is kept by `wrap_N` (00_scope.md R10). -/
theorem wrapN_of_fits {n : Nat} {v : Int} (h : Fits n v) : wrapN n v = v := by
  have hcast : ((2 ^ n : Nat) : Int) = (2 : Int) ^ n := by push_cast; rfl
  unfold Fits at h
  rw [← hcast] at h
  exact Int.bmod_eq_of_le (by omega) (by omega)

/-- Wrapping moves no value away from 0, whatever the width. -/
theorem abs_wrapN_le (n : Nat) (v : Int) : |wrapN n v| ≤ |v| := by
  obtain ⟨⟨k, hk⟩, hf⟩ := wrapN_spec n v
  unfold Fits at hf
  have hp : (0 : Int) < 2 ^ n := by positivity
  rcases lt_trichotomy k 0 with h | h | h
  · have : 2 ^ n * k ≤ -(2 : Int) ^ n := by nlinarith
    rw [abs_le, abs_of_nonpos (by omega)]
    omega
  · subst h
    rw [mul_zero, sub_eq_zero] at hk
    rw [← hk]
  · have : (2 : Int) ^ n ≤ 2 ^ n * k := by nlinarith
    rw [abs_le, abs_of_nonneg (by omega)]
    omega

/-- What is left of a value by a consumption whose range holds 0 stays in range: it lies between 0 and the value
(40_quadrature.md R123). -/
theorem consumed_fits {n d : Nat} {lo hi : Int} {acc : Int} (hlo : lo ≤ 0) (hhi : 0 ≤ hi) (h : Fits n acc) :
    Fits n (consumed d lo hi acc).2 := by
  have hm : (0 ≤ acc → 0 ≤ clamp (Int.tdiv acc d) lo hi * d ∧ clamp (Int.tdiv acc d) lo hi * d ≤ acc) ∧
      (acc ≤ 0 → acc ≤ clamp (Int.tdiv acc d) lo hi * d ∧ clamp (Int.tdiv acc d) lo hi * d ≤ 0) := by
    have hd : (0 : Int) ≤ d := Int.natCast_nonneg d
    have hr := Int.tmod_add_mul_tdiv acc d
    constructor
    · intro ha
      have hq : 0 ≤ Int.tdiv acc d := Int.tdiv_nonneg ha hd
      have hm := Int.tmod_nonneg (d : Int) ha
      have h₁ : 0 ≤ clamp (Int.tdiv acc d) lo hi := by unfold clamp; omega
      have h₂ : clamp (Int.tdiv acc d) lo hi ≤ Int.tdiv acc d := by unfold clamp; omega
      constructor <;> nlinarith
    · intro ha
      have hq : 0 ≤ Int.tdiv (-acc) d := Int.tdiv_nonneg (by omega) hd
      have hm := Int.tmod_nonneg (d : Int) (a := -acc) (by omega)
      rw [Int.neg_tdiv] at hq
      rw [Int.neg_tmod] at hm
      have h₁ : clamp (Int.tdiv acc d) lo hi ≤ 0 := by unfold clamp; omega
      have h₂ : Int.tdiv acc d ≤ clamp (Int.tdiv acc d) lo hi := by unfold clamp; omega
      constructor <;> nlinarith
  have hp : (0 : Int) < 2 ^ n := by positivity
  unfold Fits at h ⊢
  show _ ≤ 2 * (acc - clamp (Int.tdiv acc d) lo hi * d) ∧ 2 * (acc - clamp (Int.tdiv acc d) lo hi * d) < _
  rcases le_total 0 acc with ha | ha
  · have := hm.1 ha
    omega
  · have := hm.2 ha
    omega

theorem wrapN_modEq (n : Nat) (v : Int) : wrapN n v ≡ v [ZMOD 2 ^ n] := Int.modEq_iff_dvd.mpr (wrapN_spec n v).1

/-! ### The quadrature decoder -/

/-- What a phase service does to its own channel's accumulator (40_quadrature.md R121). -/
theorem Decoder.fold_acc_self (d : Decoder) (c : Config) (ch : Chan) (p : Phase) :
    (d.fold c ch p).acc[ch] = wrapAcc c (d.acc[ch] + contribution c (quadIndex p d.prev[ch])) := by
  simp [Decoder.fold]

/-- A phase service leaves the other channels' accumulators (40_quadrature.md R121). -/
theorem Decoder.fold_acc_other (d : Decoder) (c : Config) {ch k : Chan} (p : Phase) (h : k ≠ ch) :
    (d.fold c ch p).acc[k] = d.acc[k] := by
  have h' : ch.val ≠ k.val := fun e => h (Fin.ext e.symm)
  simp [Decoder.fold, Vector.getElem_set_ne _ _ h']

/-- What a consumption does to its own channel's accumulator (40_quadrature.md R123). -/
theorem State.consume_acc_self (s : State) (ch : Chan) (lo hi : Int) :
    (s.consume ch lo hi).2.dec.acc[ch] = s.dec.acc[ch] - (s.consume ch lo hi).1 * divisor s.cfg ch := by
  simp [consumed]

/-- What an encoder service does: a consumption, and at most one event (40_quadrature.md R127). -/
theorem exec_encService (ch : Fin 10) (s : State) :
    exec (.encService ch) s = .next ((s.consume (ordinary ch) (-8) 7).2.emitOpt
      (if (s.consume (ordinary ch) (-8) 7).1 = 0 then none
        else some
          { kind := kindEncoderStep
            data := encStepData (encoderId s.cfg s.scan.encShift ch) (s.consume (ordinary ch) (-8) 7).1 })) := by
  unfold exec execEncService
  dsimp only
  split <;> rfl

/-- What the VFO service does: the gathering, a consumption, and at most one event (40_quadrature.md R129). -/
theorem exec_vfoService (s : State) :
    exec .vfoService s = .next ((s.gatherVfo.consume chanV (-128) 127).2.emitOpt
      (if (s.gatherVfo.consume chanV (-128) 127).1 = 0 then none
        else some { kind := kindVfoStep, data := vfoStepData (s.gatherVfo.consume chanV (-128) 127).1 })) := by
  unfold exec execVfoService
  dsimp only
  split <;> rfl

/-! ### Vectors of channels -/

@[simp] theorem pickPolled_polled (c : Config) (new old : Vector Phase numChan) (h : c.vfoMode = .polled) :
    pickPolled c new old = new := by simp [pickPolled, h]

@[simp] theorem pickPolled_edge (c : Config) (new old : Vector Phase numChan) (h : c.vfoMode = .edge) :
    pickPolled c new old = new.set 10 old[10] := by simp [pickPolled, h]

/-! ### The event queue -/

/-- What an enqueue can do (42_event_queue.md R192). -/
theorem Queue.push_cases (q : Queue) (e : Event) :
    (q.w + 1 = q.r ∧ q.push e = q) ∨
    (q.w + 1 ≠ q.r ∧
      q.push e = { slot := q.slot.set q.w.toNat e, w := q.w + 1, r := q.r, ready := true }) := by
  by_cases h : q.w + 1 = q.r
  · exact .inl ⟨h, by rw [Queue.push, if_pos (by simpa [Queue.isFull] using h)]⟩
  · exact .inr ⟨h, by rw [Queue.push, if_neg (by simpa [Queue.isFull] using h)]; rfl⟩

/-- What a dequeue can do (42_event_queue.md R195). -/
theorem Queue.pop_cases (q : Queue) :
    (q.depth = 0 ∧ q.pop = (0x0000, { q with ready := false })) ∨
    (q.depth = 1 ∧ q.pop = (eventWord 0 q.slot[q.r.toNat], { q with r := q.r + 1, ready := false })) ∨
    (2 ≤ q.depth ∧ q.pop = (eventWord (q.depth - 1) q.slot[q.r.toNat], { q with r := q.r + 1 })) := by
  rcases Nat.lt_or_ge q.depth 2 with h | h
  · rcases (by omega : q.depth = 0 ∨ q.depth = 1) with h0 | h1
    · exact .inl ⟨h0, by simp [Queue.pop, readyAfterDequeue, h0]⟩
    · exact .inr (.inl ⟨h1, by simp [Queue.pop, readyAfterDequeue, h1]⟩)
  · exact .inr (.inr ⟨h, by
      have h0 : q.depth ≠ 0 := by omega
      have h1 : ¬ q.depth ≤ 1 := by omega
      simp [Queue.pop, readyAfterDequeue, h0, h1]⟩)

/-! ### The scan sequencer -/

/-- The rows that a row vector asserts (30_encoding.md R94). -/
@[simp] theorem mem_setRows (rows : Nat) (v : RowVec) (r : Nat) :
    r ∈ setRows rows v ↔ r < rows ∧ v.getLsbD r = true := by
  simp [setRows]

/-- A reported event is a button event with a forwarded report code (41_scan_sequencer.md R173, R174). -/
theorem Scanner.report_some {x : Scanner} {c : Config} {kind : Kind} {e : Event} (h : x.report c kind = some e) :
    x.heldScan c ≠ 9 ∧ x.heldScan c ≠ 27 ∧ e.kind = kind ∧ e.data ≠ 0 ∧ e.data ≠ 0xFF := by
  unfold Scanner.report at h
  split at h
  · cases h
  · rename_i h1
    simp only at h
    split at h
    · cases h
    · rename_i h2
      simp only [bandShiftScan, encShiftScan, not_or] at h1 h2
      cases h
      exact ⟨h1.1, h1.2, rfl, h2.1, h2.2⟩

/-- What a report depends on: the column, the row and the two toggles (41_scan_sequencer.md R174). -/
theorem Scanner.report_congr {x y : Scanner} (c : Config) (kind : Kind) (hc : x.col = y.col) (hr : x.row = y.row)
    (hb : x.bandShift = y.bandShift) (he : x.encShift = y.encShift) : x.report c kind = y.report c kind := by
  unfold Scanner.report Scanner.heldScan
  rw [hc, hr, hb, he]

/-- What confirming a press can do (41_scan_sequencer.md R170). -/
theorem Scanner.confirmPress_cases (x : Scanner) (c : Config) :
    (x.heldScan c = 9 ∧ x.confirmPress c = ({ x with bandShift := !x.bandShift }, none)) ∨
    (x.heldScan c = 27 ∧ x.confirmPress c = ({ x with encShift := !x.encShift }, none)) ∨
    (x.heldScan c ≠ 9 ∧ x.heldScan c ≠ 27 ∧ x.confirmPress c = (x, x.report c kindButtonPress)) := by
  unfold Scanner.confirmPress
  split
  · rename_i h
    exact .inl ⟨h, rfl⟩
  · split
    · rename_i _ h
      exact .inr (.inl ⟨h, rfl⟩)
    · rename_i h9 h27
      exact .inr (.inr ⟨h9, h27, rfl⟩)

/-! ### Responses -/

@[simp] theorem responseBytes_length (w : Word) (k n : Nat) : (responseBytes w k n).length = n := by
  match n with
  | 0 => rfl
  | 1 => rfl
  | m + 2 => simp [responseBytes]

/-- What a read transaction can do (44_bus_protocol.md R228, R232). -/
theorem busRead_cases (n : Nat) (w : Word) (q : Queue) (s : State) :
    (n = 0 ∧ busRead n w q s = .refused .emptyRead) ∨
    (1 ≤ n ∧ busRead n w q s = .next ((s.setQueue q).respond w n)) := by
  rcases Nat.eq_zero_or_pos n with h | h
  · exact .inl ⟨h, by simp [busRead, h]⟩
  · exact .inr ⟨h, by simp [busRead, Nat.pos_iff_ne_zero.mp h]⟩

/-! ### Reading the environment -/

theorem World.reading_supplied (w : World) {r : Reading} {rs : List Reading} (h : w.readings = r :: rs) : w.reading = r := by
  simp [World.reading, h]

theorem World.reading_free (w : World) (h : w.readings = []) : w.reading = freeReading w.draws := by
  simp [World.reading, h]

/-- The bits of a row reading that are kept (45_tick_scheduler.md R252). -/
@[simp] theorem getLsbD_rowBits (rows : Nat) (v : RowVec) (i : Nat) :
    (rowBits rows v).getLsbD i = (decide (i < rows) && v.getLsbD i) := by
  by_cases h : i < 32
  · simp [rowBits, BitVec.getLsbD_setWidth, h]
  · have : v.getLsbD i = false := BitVec.getLsbD_of_ge v i (by omega)
    simp [rowBits, BitVec.getLsbD_setWidth, h, this]

theorem rowBits_toNat_lt (rows : Nat) (v : RowVec) : (rowBits rows v).toNat < 2 ^ rows := by
  simp only [rowBits, BitVec.toNat_setWidth]
  exact Nat.lt_of_le_of_lt (Nat.mod_le _ _) (Nat.mod_lt _ (Nat.two_pow_pos rows))

/-! ### Running -/

@[simp] theorem runOps_nil (s : State) : runOps [] s = .next s := rfl

/-- Running one operation first, where it answers a next state. -/
theorem runOps_cons_next {i : Instr} {s t : State} (h : exec i s = .next t) (rest : List Instr) :
    runOps (i :: rest) s = runOps rest t := by
  simp [runOps, h]

/-- Running two lists one after the other. -/
theorem runOps_append_next {is js : List Instr} {s t : State} (h : runOps is s = .next t) :
    runOps (is ++ js) s = runOps js t := by
  induction is generalizing s with
  | nil =>
    simp only [runOps_nil] at h
    cases h
    rfl
  | cons i is ih =>
    simp only [List.cons_append, runOps] at h ⊢
    split at h
    · rename_i u hu
      exact ih h
    · cases h
    · cases h

/-- What advancing the tick position can do (45_tick_scheduler.md R251). -/
theorem advance_next {after : Option TPhase} {o : Host.Outcome State Fault Refusal} {t : State}
    (h : advance after o = .next t) :
    ∃ s, o = .next s ∧ t = match after with
      | none => s
      | some p => s.setTphase p := by
  cases o with
  | next s =>
    refine ⟨s, rfl, ?_⟩
    cases after <;> simp only [advance] at h <;> cases h <;> rfl
  | fault f => cases f
  | refused r => simp [advance] at h

end Sys2Proof.Machine
end

