-- ==== Sys2Proof/Laws/PerInstr.lean ====
section
/-! SUPPORT. A law of every operation, as one lemma per constructor: exactly the bus transactions are encoded in bytes
(30_encoding.md R90, R112). -/

namespace Sys2Proof.Laws.BusEncoding

open Sys2Proof

/-- The operation is a bus transaction (30_encoding.md R112, column "class"). -/
def isTransaction : Instr → Bool
  | .busWrSel _ => true
  | .busWrShort _ _ => true
  | .busWrLed _ _ _ => true
  | .busWrIgnored _ _ _ _ => true
  | .busRdId _ => true
  | .busRdHw _ => true
  | .busRdLed _ => true
  | .busRdEvent _ => true
  | .busRdUndef _ _ => true
  | .tickSample => false
  | .servicePhase _ _ => false
  | .encService _ => false
  | .vfoService => false
  | .consumeSteps _ _ _ => false
  | .scanStep _ => false
  | .ledProject => false
  | .vfoEdge _ _ => false
  | .enqueue _ _ => false
  | .dequeue => false
  | .reset => false

/-- Under every `REG_MAP`, the operation has an encoding exactly if it is a bus transaction (30_encoding.md R90). -/
def Statement (i : Instr) : Prop := ∀ m : RegMap, (encode m i).isSome = isTransaction i

theorem busWrSel (b0 : Byte) : Statement (.busWrSel b0) := fun _ => rfl
theorem busWrShort (b0 b1 : Byte) : Statement (.busWrShort b0 b1) := fun _ => rfl
theorem busWrLed (lo hi : Byte) (rest : List Byte) : Statement (.busWrLed lo hi rest) := fun _ => rfl
theorem busWrIgnored (b0 lo hi : Byte) (rest : List Byte) : Statement (.busWrIgnored b0 lo hi rest) := fun _ => rfl
theorem busRdId (n : Nat) : Statement (.busRdId n) := fun _ => rfl
theorem busRdHw (n : Nat) : Statement (.busRdHw n) := fun _ => rfl
theorem busRdLed (n : Nat) : Statement (.busRdLed n) := fun _ => rfl
theorem busRdEvent (n : Nat) : Statement (.busRdEvent n) := fun _ => rfl
theorem busRdUndef (sel : Byte) (n : Nat) : Statement (.busRdUndef sel n) := fun _ => rfl
theorem tickSample : Statement .tickSample := fun _ => rfl
theorem servicePhase (ch : Chan) (s : Phase) : Statement (.servicePhase ch s) := fun _ => rfl
theorem encService (ch : Fin 10) : Statement (.encService ch) := fun _ => rfl
theorem vfoService : Statement .vfoService := fun _ => rfl
theorem consumeSteps (ch : Chan) (lo hi : Int) : Statement (.consumeSteps ch lo hi) := fun _ => rfl
theorem scanStep (v : RowVec) : Statement (.scanStep v) := fun _ => rfl
theorem ledProject : Statement .ledProject := fun _ => rfl
theorem vfoEdge (a b : Bool) : Statement (.vfoEdge a b) := fun _ => rfl
theorem enqueue (kind : Kind) (data : Byte) : Statement (.enqueue kind data) := fun _ => rfl
theorem dequeue : Statement .dequeue := fun _ => rfl
theorem reset : Statement .reset := fun _ => rfl

end Sys2Proof.Laws.BusEncoding
end

