-- ==== Sys2Proof/Tests/Slice0.lean ====
section
/-! SUPPORT. Tests: decoding of transactions written out from 30_encoding.md R108 to R112, the ill-formed operations that
`wellFormed` refuses, one-step tests whose expected values are the vectors of 95_test_vectors.md, and for each statement with
hypotheses a witness that meets them. -/

namespace Sys2Proof.Tests

open Sys2Proof Sys2Proof.Machine

/-! ### A concrete configuration and state (95_test_vectors.md, common configuration) -/

/-- The vectors' report table `RT`. -/
def vecReportTable : Vector Byte 64 :=
  (((((((Vector.replicate 64 (0 : Byte)).set 3 0x21).set 4 0x22).set 5 0x40).set 6 0xFF).set 9 0x30).set 11 0x23).set 35 0x61

/-- The vectors' common configuration, with both divisors 1. -/
def vecCfg : Config where
  encDiv := 1
  vfoDiv := 1
  accWidth := 16
  quadTable := defaultQuadTable
  vfoMode := .edge
  vfoEdge := .rising
  rows := 8
  cols := 4
  reportTable := vecReportTable
  encShiftBtnCode := 0x40
  encShiftAltCode := 0x41
  encIdMap := identityEncIdMap
  debounceTicks := 10
  longpressTicks := 1000
  regMap := defaultRegMap
  productId := 0x5A
  fwVersion := 0x07
  hwRev := 0x02
  ledBandBit := 9
  ledEncBit := 10
  ledReadback := .hostWord

/-- The state after reset with every phase sample 0b00, under the vectors' configuration. -/
def vec : State := { State.reset with cfg := vecCfg }

/-- `vec` in `POLLED` mode. -/
def vecPolled : State := { vec with cfg := { vecCfg with vfoMode := .polled } }

/-- `vec` with the sequencer as given. -/
def withScan (st : ScanState) (col row dcnt lpcnt : Nat) : State :=
  { vec with scan := { vec.scan with state := st, col := col, row := row, dcnt := dcnt, lpcnt := lpcnt } }

/-- `vec` with the queue's indices and ready line as given. -/
def withQueue (r w : BitVec 4) (ready : Bool) : State :=
  { vec with queue := { vec.queue with r := r, w := w, ready := ready } }

/-- `vec` with one accumulator as given. -/
def withAcc (ch : Chan) (a : Int) : State := { vec with dec := vec.dec.setAcc ch a }

/-- `vec` with the next acts as given. -/
def withActs (acts : List Act) : State := { vec with world := { vec.world with inbox := acts } }

/-- `vec` at a tick position. -/
def atPhase (t : TPhase) : State := { vec with tphase := t }

/-- The state after an operation; the state itself where there is none. -/
def after (i : Instr) (s : State) : State :=
  match exec i s with
  | .next t => t
  | .fault _ => s
  | .refused _ => s

/-- The state after a step; the state itself where there is none. -/
def afterStep (s : State) : State :=
  match step s with
  | .next t => t
  | .fault _ => s
  | .refused _ => s

theorem vecCfg_legal : ConfigLegal vecCfg where
  encDiv := by decide
  vfoDiv := by decide
  geometry := by decide
  rows := by decide
  quadTable := by decide
  encIdMap := by decide
  debounce := by decide
  longpress := by decide

theorem vec_inv : Inv vec where
  config := vecCfg_legal
  scanner := ⟨by decide, by decide, by decide, by decide, by decide⟩
  queue := ⟨by decide, by decide, by decide⟩
  decoder := ⟨by decide, by decide, by decide, by decide, by decide⟩
  rowsmp := by decide

/-! ### Decoding (30_encoding.md R108 to R112) -/

theorem test_decode_busWrSel : decode defaultRegMap (.write [0x02]) = .ok (.busWrSel 0x02) := rfl
theorem test_decode_busWrShort : decode defaultRegMap (.write [0x02, 0xFF]) = .ok (.busWrShort 0x02 0xFF) := rfl
theorem test_decode_busWrLed :
    decode defaultRegMap (.write [0x02, 0x01, 0x86]) = .ok (.busWrLed 0x01 0x86 []) := rfl
theorem test_decode_busWrIgnored :
    decode defaultRegMap (.write [0x00, 0x11, 0x22]) = .ok (.busWrIgnored 0x00 0x11 0x22 []) := rfl
theorem test_decode_busRdId : decode defaultRegMap (.read 0x00 1) = .ok (.busRdId 1) := rfl
theorem test_decode_busRdHw : decode defaultRegMap (.read 0x01 4) = .ok (.busRdHw 4) := rfl
theorem test_decode_busRdLed : decode defaultRegMap (.read 0x02 2) = .ok (.busRdLed 2) := rfl
theorem test_decode_busRdEvent : decode defaultRegMap (.read 0x03 2) = .ok (.busRdEvent 2) := rfl
theorem test_decode_busRdUndef : decode defaultRegMap (.read 0x04 2) = .ok (.busRdUndef 0x04 2) := rfl
theorem test_decode_emptyWrite : decode defaultRegMap (.write []) = .error .emptyWrite := rfl
theorem test_decode_emptyRead : decode defaultRegMap (.read 0x03 0) = .error .emptyRead := rfl

/-- Table words: 8 bits are a select value read, more bits are the bytes of a write (log 15). -/
theorem test_decodeTableWord_read : decodeTableWord 8 0x03 = some (.busRdEvent 2) := by decide
theorem test_decodeTableWord_write : decodeTableWord 24 0x123402 = some (.busWrLed 0x34 0x12 []) := by decide

/-! The internal operations have no encoding; the tick's position and the next act select them (30_encoding.md R112). -/

theorem test_select_tickSample : tickOps (atPhase .t0Sample) = [.tickSample] := rfl
theorem test_select_servicePhase : (tickOps (atPhase .t1Phase)).length = 10 := by decide
theorem test_select_servicePhase_polled : (tickOps { vecPolled with tphase := .t1Phase }).length = 11 := by decide
theorem test_select_vfoService : tickOps (atPhase (.t2Decode 0)) = [.vfoService] := rfl
theorem test_select_encService_first : tickOps (atPhase (.t2Decode 1)) = [.encService 0] := rfl
theorem test_select_encService_last : tickOps (atPhase (.t2Decode 10)) = [.encService 9] := rfl
theorem test_select_scanStep : tickOps (atPhase .t3Scan) = [.scanStep 0] := rfl
theorem test_select_ledProject : tickOps (atPhase .t4Led) = [.ledProject] := rfl
theorem test_select_vfoEdge :
    fetch (withActs [.edge true false]) = .ok { ops := [.vfoEdge true false], after := none } := rfl
theorem test_select_reset : fetch (withActs [.powerOn]) = .ok { ops := [.reset], after := none } := rfl

/-! ### Ill-formed operations are refused -/

/-- A configuration in which every register has the select value 0. -/
def clashCfg : Config := { vecCfg with regMap := { id := 0, hw := 0, led := 0, event := 0 } }

theorem test_illFormed_busWrIgnored : (Instr.busWrIgnored 0x02 0 0 []).wellFormed vecCfg = false := by decide
theorem test_illFormed_busRdId : (Instr.busRdId 0).wellFormed vecCfg = false := by decide
theorem test_illFormed_busRdHw : (Instr.busRdHw 0).wellFormed vecCfg = false := by decide
theorem test_illFormed_busRdHw_hidden : (Instr.busRdHw 1).wellFormed clashCfg = false := by decide
theorem test_illFormed_busRdLed : (Instr.busRdLed 0).wellFormed vecCfg = false := by decide
theorem test_illFormed_busRdLed_hidden : (Instr.busRdLed 1).wellFormed clashCfg = false := by decide
theorem test_illFormed_busRdEvent : (Instr.busRdEvent 0).wellFormed vecCfg = false := by decide
theorem test_illFormed_busRdEvent_hidden : (Instr.busRdEvent 1).wellFormed clashCfg = false := by decide
theorem test_illFormed_busRdUndef : (Instr.busRdUndef 0x7E 0).wellFormed vecCfg = false := by decide
theorem test_illFormed_busRdUndef_named : (Instr.busRdUndef 0x03 1).wellFormed vecCfg = false := by decide
theorem test_illFormed_servicePhase : (Instr.servicePhase 10 0).wellFormed vecCfg = false := by decide
theorem test_illFormed_consumeSteps : (Instr.consumeSteps 10 (-8) 7).wellFormed vecCfg = false := by decide
theorem test_illFormed_scanStep : (Instr.scanStep 0x100).wellFormed vecCfg = false := by decide
theorem test_illFormed_vfoEdge : (Instr.vfoEdge true true).wellFormed vecPolled.cfg = false := by decide
theorem test_illFormed_enqueue_zero : (Instr.enqueue 0 0).wellFormed vecCfg = false := by decide
theorem test_illFormed_enqueue_six : (Instr.enqueue 6 0).wellFormed vecCfg = false := by decide

/-! ### One-step tests (95_test_vectors.md L2) -/

/-- B3. -/
theorem test_busWrSel : (after (.busWrSel 0x7E) vec).bus = { regsel := 0x7E, ledHost := 0 } := by decide
theorem test_busWrShort_keeps_led : (after (.busWrShort 0x02 0xFF) vec).bus = { regsel := 0x02, ledHost := 0 } := by decide
/-- B2. -/
theorem test_busWrLed : (after (.busWrLed 0x34 0x12 [0x99]) vec).bus = { regsel := 0x02, ledHost := 0x1234 } := by decide
/-- B5. -/
theorem test_busWrIgnored_keeps_ready : (after (.busWrIgnored 0x00 0x11 0x22 []) (withQueue 0 2 true)).queue.ready = true := by decide
/-- B6, B7. -/
theorem test_busRdId : (after (.busRdId 2) (withQueue 0 2 true)).world.resp = [0x07, 0x5A] := by decide
theorem test_busRdId_clears_ready : (after (.busRdId 1) (withQueue 0 2 true)).queue.ready = false := by decide
/-- B8: the two bytes the spec fixes. -/
theorem test_busRdHw : (after (.busRdHw 4) vec).world.resp.take 2 = [0x02, 0x00] := by decide
/-- B9, B9b. -/
theorem test_busRdLed : (after (.busRdLed 2) { vec with bus := { regsel := 2, ledHost := 0x8203 } }).world.resp = [0x03, 0x82] := by decide
theorem test_busRdLed_projected :
    (after (.busRdLed 2) { vec with
      cfg := { vecCfg with ledReadback := .projected }, bus := { regsel := 2, ledHost := 0x0203 }
      scan := { vec.scan with encShift := true } }).world.resp = [0x03, 0x04] := by decide
/-- B11. -/
theorem test_busRdEvent_empty : (after (.busRdEvent 2) vec).world.resp = [0x00, 0x00] := by decide
theorem test_busRdUndef_length : (after (.busRdUndef 0x7E 2) vec).world.resp.length = 2 := by decide
/-- T0 latches the rows of the reading. -/
theorem test_tickSample :
    (after .tickSample { vec with
      world := { vec.world with readings := [{ phase := Vector.replicate 11 2, rows := 0x108 }] } }).latch.rowsmp = 0x08 := by decide
/-- Q1: 0b00 to 0b10 adds 1; 0b00 to 0b11 adds 2. -/
theorem test_servicePhase : ((after (.servicePhase 3 0b10) vec).dec.acc[3]) = 1 := by decide
theorem test_servicePhase_skip : ((after (.servicePhase 3 0b11) vec).dec.acc[3]) = 2 := by decide
/-- Q2: -5 at D = 2 returns -2 and leaves -1; 9 at D = 1 is clamped. -/
theorem test_consumeSteps :
    let t := after (.consumeSteps 4 (-8) 7) { withAcc 4 (-5) with cfg := { vecCfg with encDiv := 2 } }
    t.world.retSteps = -2 ∧ (t.dec.acc[4]) = -1 := by decide
theorem test_consumeSteps_clamped :
    let t := after (.consumeSteps 4 (-8) 7) (withAcc 4 9)
    t.world.retSteps = 7 ∧ (t.dec.acc[4]) = 2 := by decide
/-- Q6. -/
theorem test_encService : (after (.encService 7) (withAcc 7 (-1))).queue.slot[0] = { kind := 2, data := 0x7F } := by decide
theorem test_encService_residue :
    (after (.encService 0) { withAcc 0 3 with cfg := { vecCfg with encDiv := 4 } }).queue.w = 0 := by decide
/-- Q5. -/
theorem test_vfoService :
    (after .vfoService { vec with dec := { vec.dec with vfoRaw := -3 } }).queue.slot[0] = { kind := 1, data := 0xFD } := by decide
theorem test_vfoService_clears :
    (after .vfoService { vec with dec := { vec.dec with vfoRaw := -3 } }).dec.vfoRaw = 0 := by decide
/-- Q4, with the wrap. -/
theorem test_vfoEdge_wraps :
    (after (.vfoEdge true true) { vec with dec := { vec.dec with vfoRaw := 32767 } }).dec.vfoRaw = -32768 := by decide
/-- The same edge under an `ACC_WIDTH` of 4 bits, by hand: 7 + 1 wraps to -8. -/
theorem test_vfoEdge_wraps_accWidth :
    (after (.vfoEdge true true) { vec with
      cfg := { vecCfg with accWidth := 4 }, dec := { vec.dec with vfoRaw := 7 } }).dec.vfoRaw = -8 := by decide
theorem test_vfoEdge_falling : (after (.vfoEdge false true) vec).dec.vfoRaw = 0 := by decide
/-- S1, the confirming step: tick 11. -/
theorem test_scanStep_press :
    (after (.scanStep 0x08) (withScan .waitPressed 0 3 1 0)).queue.slot[0] = { kind := 3, data := 0x21 } := by decide
/-- S4: a second row while pressed. -/
theorem test_scanStep_release :
    (after (.scanStep 0x18) (withScan .pressed 0 3 0 1000)).queue.slot[0] = { kind := 5, data := 0x21 } := by decide
/-- L-6, L-7. -/
theorem test_ledProject :
    (after .ledProject { vec with bus := { regsel := 0, ledHost := 0x0203 }, scan := { vec.scan with encShift := true } }).ledOut = 0x403 := by decide
theorem test_ledProject_override :
    (after .ledProject { vec with bus := { regsel := 0, ledHost := 0x8601 }, scan := { vec.scan with bandShift := true } }).ledOut = 0x601 := by decide
/-- E1, E7. -/
theorem test_enqueue : (after (.enqueue 3 0x21) vec).queue.ready = true := by decide
theorem test_enqueue_full : after (.enqueue 3 0x21) (withQueue 5 4 true) = withQueue 5 4 true := rfl
/-- E3, E4. -/
theorem test_dequeue :
    (after .dequeue { vec with queue :=
      { slot := vec.queue.slot.set 4 { kind := 2, data := 0x41 }, w := 6, r := 4, ready := true } }).world.retWord = 0x1241 := by decide
theorem test_dequeue_last :
    (after .dequeue { vec with queue :=
      { slot := vec.queue.slot.set 5 { kind := 5, data := 0x22 }, w := 6, r := 5, ready := true } }).queue.ready = false := by decide
/-- R-1. -/
theorem test_reset :
    (after .reset { vec with world := { vec.world with
      readings := [{ phase := (Vector.replicate 11 0).set 5 1, rows := 0 }] } }).dec.prev[5] = 1 := by decide
theorem test_reset_refused : exec .reset { vec with cfg := { vecCfg with encDiv := 3 } } = .refused .configuration := rfl
/-- R-2: the first step after reset, reading two bytes. -/
theorem test_step_first_read : (afterStep (withActs [.read 2])).world.resp = [0x07, 0x5A] := by decide
/-- The first step with a table word. -/
theorem test_step_withFetchWord : step (vec.withFetchWord 8 0x02) = exec (.busRdLed 2) (vec.select 0x02) := rfl

/-! ### Witnesses: every statement with hypotheses has an instance that meets them -/

theorem witness_DecodeOfEncodeGivesTheOperation :
    (Instr.busRdUndef 0x04 1).wellFormed vecCfg = true ∧ encode vecCfg.regMap (.busRdUndef 0x04 1) = some (.read 0x04 1) := by decide
theorem witness_EncodeOfDecodeGivesTheTransaction : decode vecCfg.regMap (.write [0x02, 1, 2]) = .ok (.busWrLed 1 2 []) := rfl
theorem witness_RowClassCountsAssertedRows :
    vecCfg.rows = 8 ∧ rowClass 8 0x80 = .row 7 ∧ rowClass 8 0x100 = .none ∧ rowClass 8 0x81 = .multi := by decide
theorem witness_DefaultQuadTableSignsTransitions :
    (0 : Phase) = 0 ∧ ((0b01, 0b00) : Phase × Phase) ∈ [((0b00, 0b10) : Phase × Phase), (0b10, 0b11), (0b11, 0b01), (0b01, 0b00)] ∧
      (3 : Phase) ^^^ 0 = 0b11 ∧ (2 : Phase) ^^^ 1 = 0b11 ∧ (1 : Phase) ^^^ 0 = 0b01 ∧ (2 : Phase) ^^^ 0 = 0b10 := by decide
theorem witness_WriteTransactionStep_empty : (withActs [.write []]).world.inbox = .write [] :: [] := rfl
theorem witness_WriteTransactionStep_one : (withActs [.write [2]]).world.inbox = .write (2 :: []) :: [] := rfl
theorem witness_WriteTransactionStep_two : (withActs [.write [2, 0xFF]]).world.inbox = .write (2 :: [0xFF]) :: [] := rfl
theorem witness_WriteTransactionStep_three :
    (withActs [.write [2, 0xFF, 7]]).world.inbox = .write (2 :: 0xFF :: 7 :: []) :: [] := rfl
theorem witness_reads_length : 1 ≤ (1 : Nat) := by decide
theorem witness_LedRead_hostWord : vec.cfg.ledReadback = .hostWord := rfl
theorem witness_LedRead_projected : ({ vecCfg with ledReadback := .projected } : Config).ledReadback = .projected := rfl
theorem witness_EmptyTransactions_write : (withActs [.write []]).world.inbox = .write [] :: [] := rfl
theorem witness_EmptyTransactions_read : (withActs [.read 0]).world.inbox = .read 0 :: [] := rfl
theorem witness_ReadTransactionStep : (withActs [.read 1]).world.inbox = .read 1 :: [] ∧ 1 ≤ (1 : Nat) := ⟨rfl, by decide⟩
theorem witness_ReadTransactionStep_empty : (withActs [.read 0]).world.inbox = .read 0 :: [] := rfl
theorem witness_Enqueue_full : (withQueue 0 15 true).queue.w + 1 = (withQueue 0 15 true).queue.r := by decide
theorem witness_Enqueue_room : (withQueue 0 14 true).queue.w + 1 ≠ (withQueue 0 14 true).queue.r := by decide
theorem witness_Dequeue_empty : 0 = ((withQueue 6 6 false).queue.w - (withQueue 6 6 false).queue.r).toNat := by decide
theorem witness_Dequeue_last : 1 = ((withQueue 5 6 true).queue.w - (withQueue 5 6 true).queue.r).toNat := by decide
theorem witness_Dequeue_full : 15 = ((withQueue 5 4 true).queue.w - (withQueue 5 4 true).queue.r).toNat := by decide
theorem witness_QueueRefines_empty : vec.queue.contents = [] := rfl
theorem witness_QueueRefines_one :
    (withQueue 0 1 true).queue.contents = [({ kind := 0, data := 0 } : Event)] := by decide
theorem witness_Fifo_one : vec.queue.w = vec.queue.r ∧ 1 ≤ ([{ kind := 3, data := 1 }] : List Event).length := by decide
theorem witness_Fifo_fifteen :
    vec.queue.w = vec.queue.r ∧ (List.replicate 15 ({ kind := 3, data := 1 } : Event)).length ≤ 15 := by decide
theorem witness_ConsumptionTakesClampedQuotient :
    (9 : Int) = (withAcc 4 9).dec.acc[4] ∧ (7 : Int) = min (max (Int.tdiv 9 1) (-8)) 7 := by decide
theorem witness_ConsumptionLosesNoStep_fits :
    (-7 : Int) = (withAcc 4 (-7)).dec.acc[4] ∧ (-8 : Int) ≤ Int.tdiv (-7) 1 ∧ Int.tdiv (-7) 1 ≤ 7 := by decide
theorem witness_ConsumptionLosesNoStep_clamped :
    (300 : Int) = (withAcc 10 300).dec.acc[10] ∧ ((1 : Int) = (withAcc 10 300).cfg.vfoDiv) ∧ (-128 : Int) ≤ 0 := by decide
theorem witness_EncoderService :
    (-1 : Int) = (withAcc 7 (-1)).dec.acc[(7 : Fin 10).castSucc] ∧ (-1 : Int) = min (max (Int.tdiv (-1) 1) (-8)) 7 ∧
      7 = vecCfg.encIdMap[0][7] := by decide
theorem witness_VfoService_edge : vec.cfg.vfoMode = .edge ∧ (0 : Int) = vec.dec.acc[10] + vec.dec.vfoRaw := by decide
theorem witness_VfoService_polled : vecPolled.cfg.vfoMode = .polled ∧ (0 : Int) = vecPolled.dec.acc[10] := by decide
theorem witness_EncoderPath_polled : vecPolled.cfg.vfoMode = .polled := rfl
theorem witness_VfoEdge_edge : vec.cfg.vfoMode = .edge := rfl
theorem witness_VfoEdge_polled : vecPolled.cfg.vfoMode = .polled := rfl
theorem witness_ScanStepFromIdle :
    vec.scan.state = .idle ∧ rowClass 8 0 = .none ∧ rowClass 8 0x80 = .row 7 ∧ rowClass 8 0x81 = .multi := by decide
theorem witness_ScanStepFromWaitPressed_running :
    (withScan .waitPressed 0 3 2 0).scan.state = .waitPressed ∧ 2 ≤ (withScan .waitPressed 0 3 2 0).scan.dcnt := by decide
theorem witness_ScanStepFromWaitPressed_other :
    (withScan .waitPressed 0 3 1 0).scan.state = .waitPressed ∧ (withScan .waitPressed 0 3 1 0).scan.dcnt = 1 ∧
      rowClass 8 0x10 ≠ .row 3 := by decide
theorem witness_ScanStepFromWaitPressed_same :
    (withScan .waitPressed 1 1 1 0).scan.state = .waitPressed ∧ (withScan .waitPressed 1 1 1 0).scan.dcnt = 1 ∧ rowClass 8 0x02 = .row 1 ∧ 9 = 1 * vecCfg.rows + 1 := by decide
theorem witness_ScanStepFromPressed :
    (withScan .pressed 0 3 0 1).scan.state = .pressed ∧ rowClass 8 0x08 = .row 3 ∧ rowClass 8 0 = .none ∧
      rowClass 8 0x10 ≠ .row 3 ∧ rowClass 8 0x10 ≠ .none := by decide
theorem witness_ScanStepFromPressed_counts :
    (withScan .pressed 0 3 0 0).scan.lpcnt = 0 ∧ (withScan .pressed 0 3 0 1).scan.lpcnt = 1 ∧
      2 ≤ (withScan .pressed 0 3 0 2).scan.lpcnt := by decide
theorem witness_ScanStepFromWaitReleased :
    (withScan .waitReleased 0 3 1 0).scan.state = .waitReleased ∧ (withScan .waitReleased 0 3 1 0).scan.dcnt = 1 ∧
      2 ≤ (withScan .waitReleased 0 3 2 0).scan.dcnt ∧ rowClass 8 0x03 ≠ .none ∧ rowClass 8 0x03 ≠ .row 3 := by decide
theorem witness_ScanStepFromMultiStates :
    (withScan .multiPressed 0 3 1 0).scan.state = .multiPressed ∧
      (withScan .waitMultiReleased 0 3 1 0).scan.state = .waitMultiReleased ∧ rowClass 8 0 = .none ∧ rowClass 8 1 ≠ .none ∧
      2 ≤ (withScan .multiPressed 0 3 2 0).scan.dcnt := by decide
theorem witness_ReportClassifiesTheHeldButton :
    31 = 3 * vecCfg.rows + 7 ∧ 31 + 32 * true.toNat < 64 ∧ (0 : Byte) = vecCfg.reportTable[31 + 32 * true.toNat] := by decide
theorem witness_ShiftButtons_band :
    9 = (withScan .waitPressed 1 1 1 0).scan.col * vecCfg.rows + 1 ∧ ∃ t, exec (.scanStep 2) (withScan .waitPressed 1 1 1 0) = .next t :=
  ⟨by decide, _, rfl⟩
theorem witness_ShiftButtons_enc :
    27 = (withScan .waitPressed 3 3 1 0).scan.col * vecCfg.rows + 3 ∧ ∃ t, exec (.scanStep 8) (withScan .waitPressed 3 3 1 0) = .next t :=
  ⟨by decide, _, rfl⟩
theorem witness_MultiPress : ∃ t, exec (.scanStep 0) (withScan .multiPressed 0 0 1 0) = .next t := ⟨_, rfl⟩
theorem witness_MultiPress_last :
    (after (.scanStep 0) (withScan .waitMultiReleased 0 0 1 0)).scan.state = .idle := by decide
theorem witness_OnePressOneRelease :
    ConfigLegal vec.cfg ∧ vec.scan.state = .idle ∧ vec.scan.col < vec.cfg.cols ∧ rowClass 8 0x08 = .row 3 ∧ rowClass 8 0 = .none ∧
      ({ vec.scan with row := 3 } : Scanner).report vecCfg 3 = some { kind := 3, data := 0x21 } :=
  ⟨vecCfg_legal, by decide, by decide, by decide, by decide, by decide⟩
theorem witness_TickSampleLatchesTheReading :
    ({ vec.world with readings := [{ phase := Vector.replicate 11 0, rows := 0 }] } : World).readings =
      { phase := Vector.replicate 11 0, rows := 0 } :: [] := rfl
theorem witness_TickSampleCompletesOnDraws : vec.world.readings = [] := rfl
theorem witness_TickTurn_alone : vec.tickTurn := .inl rfl
theorem witness_TickTurn_scheduled : (withActs [.tick]).tickTurn := .inr rfl
theorem witness_TickStep_positions :
    (atPhase .wait).tphase = .wait ∧ (atPhase .t0Sample).tphase = .t0Sample ∧ (atPhase .t1Phase).tphase = .t1Phase ∧
      (atPhase (.t2Decode 0)).tphase = .t2Decode 0 ∧ (atPhase (.t2Decode 10)).tphase = .t2Decode (9 : Fin 10).succ ∧
      (atPhase .t3Scan).tphase = .t3Scan ∧ (atPhase .t4Led).tphase = .t4Led := by decide
theorem witness_StepRuns_write : decode vecCfg.regMap (.write [3]) = .ok (.busWrSel 3) := rfl
theorem witness_StepRuns_read : decode vecCfg.regMap (.read vec.bus.regsel 2) = .ok (.busRdId 2) := rfl
theorem witness_StepRuns_edge : (withActs [.edge true true]).world.inbox = .edge true true :: [] := rfl
theorem witness_StepRuns_powerOn : (withActs [.powerOn]).world.inbox = .powerOn :: [] := rfl
theorem witness_EveryTickCompletes : State.reset.world.inbox = [] ∧ State.reset.tphase = .wait := ⟨rfl, rfl⟩
theorem witness_EventsOfATickComeInOrder : vec.world.inbox = [] ∧ vec.tphase = .wait := ⟨rfl, rfl⟩
theorem witness_StepsComplete :
    (∀ acts, vec.world.inbox ≠ .write [] :: acts) ∧ (∀ acts, vec.world.inbox ≠ .read 0 :: acts) ∧ ConfigLegal vec.cfg :=
  ⟨fun _ h => (List.cons_ne_nil _ _ h.symm), fun _ h => (List.cons_ne_nil _ _ h.symm), vecCfg_legal⟩
theorem witness_steps : (∃ t, step vec = .next t) ∧ ∀ acts, vec.world.inbox ≠ .powerOn :: acts :=
  ⟨⟨_, rfl⟩, fun _ h => List.cons_ne_nil _ _ h.symm⟩
theorem witness_Registers_led : (afterStep (withActs [.write [2, 0x34, 0x12]])).bus.ledHost = 0x1234 := by decide
theorem witness_Ready_falls :
    (afterStep { withQueue 0 1 true with world := { vec.world with inbox := [.read 1] } }).queue.ready = false := by decide
theorem witness_Ready_rises : (afterStep { withAcc 0 1 with tphase := .t2Decode 1 }).queue.ready = true := by decide
theorem witness_EdgesAndTransactionsCommute : decode vec.cfg.regMap (.read 3 1) = .ok (.busRdEvent 1) := rfl
theorem witness_EveryStepKeepsTheInvariants : Inv vec ∧ ∃ t, step vec = .next t := ⟨vec_inv, _, rfl⟩
theorem witness_ResetBringsTheInitialState : ConfigLegal vec.cfg := vecCfg_legal

end Sys2Proof.Tests
end

