-- ==== Sys2Proof/Proofs/Scope/Running.lean ====
section
/-! SUPPORT. What a step runs: the fetch by the next act, the inversion of a step that answers a next state, and the
induction over the operations of one step. -/

namespace Sys2Proof.Machine

/-! ### The fetch, act by act (00_scope.md R5) -/

/-- A transaction that decodes is fetched as its one operation (30_encoding.md R112). -/
theorem fetchFrame_of_decode {s : State} {f : Frame} {i : Instr} (h : decode s.cfg.regMap f = .ok i) :
    fetchFrame s f = .ok { ops := [i], after := none } := by
  simp [fetchFrame, h]

theorem fetch_write {s : State} {b : List Byte} {acts : List Act} (h : s.world.inbox = .write b :: acts) :
    fetch s = fetchFrame s (.write b) := by
  simp [fetch, h]

theorem fetch_read {s : State} {n : Nat} {acts : List Act} (h : s.world.inbox = .read n :: acts) :
    fetch s = fetchFrame s (.read s.bus.regsel n) := by
  simp [fetch, h]

theorem fetch_edge {s : State} {a b : Bool} {acts : List Act} (h : s.world.inbox = .edge a b :: acts) :
    fetch s = .ok { ops := [.vfoEdge a b], after := none } := by
  simp [fetch, h]

theorem fetch_powerOn {s : State} {acts : List Act} (h : s.world.inbox = .powerOn :: acts) :
    fetch s = .ok { ops := [.reset], after := none } := by
  simp [fetch, h]

/-- Using up the first act of a known schedule. -/
theorem State.popInbox_of_inbox {s : State} {a : Act} {acts : List Act} (h : s.world.inbox = a :: acts) :
    s.popInbox = { s with world := { s.world with inbox := acts } } := by
  simp [State.popInbox, State.setWorld, h]

/-! ### Running what was fetched -/

theorem runOps_singleton (i : Instr) (s : State) : runOps [i] s = exec i s := by
  unfold runOps
  cases exec i s <;> rfl

@[simp] theorem advance_none (o : Host.Outcome State Fault Refusal) : advance none o = o := by
  cases o <;> rfl

theorem step_of_fetch {s : State} {f : Fetched} (h : fetch s = .ok f) :
    step s = advance f.after (runOps f.ops s.popInbox) := by
  simp [step, runFetched, h]

/-- A step that fetches one operation of an agent other than the tick agent is that operation, with the act used up. -/
theorem step_of_fetch_single {s : State} {i : Instr} (h : fetch s = .ok { ops := [i], after := none }) :
    step s = exec i s.popInbox := by
  rw [step_of_fetch h, advance_none, runOps_singleton]

/-- What a step that answers a next state did: it ran the fetched operations with the act used up, and then moved the tick
position where the act was the tick agent's (45_tick_scheduler.md R251). -/
theorem step_next {s t : State} (h : step s = .next t) :
    ∃ f u, fetch s = .ok f ∧ runOps f.ops s.popInbox = .next u ∧ t = f.after.elim u u.setTphase := by
  cases hf : fetch s with
  | error r => simp [step, runFetched, hf] at h
  | ok f =>
    obtain ⟨ops, after⟩ := f
    rw [step_of_fetch hf] at h
    obtain ⟨u, hu, ht⟩ := advance_next h
    refine ⟨⟨ops, after⟩, u, rfl, hu, ht.trans ?_⟩
    cases after <;> rfl

/-- Induction over the operations of one step: what each of them keeps, running them all keeps. -/
theorem runOps_keeps {P : State → Prop} {is : List Instr}
    (hP : ∀ i ∈ is, ∀ s t, exec i s = .next t → P s → P t) {s t : State} (h : runOps is s = .next t) (hs : P s) :
    P t := by
  induction is generalizing s with
  | nil =>
    cases h
    exact hs
  | cons i is ih =>
    cases hi : exec i s with
    | next u =>
      rw [runOps_cons_next hi] at h
      exact ih (fun j hj => hP j (List.mem_cons_of_mem i hj)) h (hP i List.mem_cons_self s u hi hs)
    | fault f => cases f
    | refused r => simp [runOps, hi] at h

end Sys2Proof.Machine
end

