-- ==== Sys2Proof/Proofs/Scope/Configuration.lean ====
section
/-! SUPPORT. The configuration: no operation writes it (00_scope.md R7, 40_quadrature.md R138), and the check that RESET makes
of it says the constraints of 00_scope.md R8. -/

namespace Sys2Proof.Machine

/-! ### No operation writes the configuration -/

@[simp] theorem State.gatherVfo_cfg (s : State) : s.gatherVfo.cfg = s.cfg := by
  unfold State.gatherVfo
  split <;> rfl

/-- A read transaction leaves the configuration. -/
theorem busRead_cfg {n : Nat} {w : Word} {q : Queue} {s t : State} (h : busRead n w q s = .next t) : t.cfg = s.cfg := by
  obtain ⟨-, hr⟩ | ⟨-, hr⟩ := busRead_cases n w q s
  · rw [hr] at h
    cases h
  · rw [hr] at h
    cases h
    rfl

/-- RESET, where it is not refused, leaves the configuration (70_reset_and_hazards.md R300). -/
theorem execReset_cfg {s t : State} (h : execReset s = .next t) : t.cfg = s.cfg := by
  unfold execReset at h
  split at h
  · cases h
    rfl
  · cases h

/-- A VFO edge leaves the configuration, in both modes. -/
theorem execVfoEdge_cfg {a b : Bool} {s t : State} (h : execVfoEdge a b s = .next t) : t.cfg = s.cfg := by
  unfold execVfoEdge at h
  split at h <;> cases h <;> rfl

/-- Every operation that answers a next state leaves the configuration (00_scope.md R7). -/
theorem exec_cfg {i : Instr} {s t : State} (h : exec i s = .next t) : t.cfg = s.cfg := by
  cases i with
  | busWrSel => cases h; rfl
  | busWrShort => cases h; rfl
  | busWrLed => cases h; rfl
  | busWrIgnored => cases h; rfl
  | busRdId => exact busRead_cfg h
  | busRdHw => exact busRead_cfg h
  | busRdLed => exact busRead_cfg h
  | busRdEvent => exact busRead_cfg h
  | busRdUndef => exact busRead_cfg h
  | tickSample => cases h; rfl
  | servicePhase => cases h; rfl
  | encService ch =>
    rw [exec_encService] at h
    cases h
    simp
  | vfoService =>
    rw [exec_vfoService] at h
    cases h
    simp
  | consumeSteps => cases h; rfl
  | scanStep => cases h; simp
  | ledProject => cases h; rfl
  | vfoEdge => exact execVfoEdge_cfg h
  | enqueue => cases h; rfl
  | dequeue => cases h; rfl
  | reset => exact execReset_cfg h

/-- Running the operations of a step leaves the configuration. -/
theorem runOps_cfg {is : List Instr} {s t : State} (h : runOps is s = .next t) : t.cfg = s.cfg :=
  runOps_keeps (P := fun u => u.cfg = s.cfg) (fun _ _ _ _ hi hu => (exec_cfg hi).trans hu) h rfl

/-! ### The check of a configuration -/

theorem isDivisor_iff (d : Nat) : isDivisor d = true ↔ d = 1 ∨ d = 2 ∨ d = 4 := by
  simp [isDivisor, or_assoc]

theorem geometryOk_iff (c : Config) : geometryOk c = true ↔ c.rows * c.cols = 32 ∧ 4 ≤ c.rows := by
  simp [geometryOk]

theorem quadTableOk_iff (c : Config) :
    quadTableOk c = true ↔ ∀ i : Fin 16, -2 ≤ c.quadTable[i] ∧ c.quadTable[i] ≤ 2 := by
  simp [quadTableOk, Vector.all_toList, Vector.all_eq_true, Fin.forall_iff]

theorem encIdMapOk_iff (c : Config) :
    encIdMapOk c = true ↔ ∀ (e : Fin 2) (ch : Fin 10), c.encIdMap[e][ch] ≤ 15 := by
  simp [encIdMapOk, Vector.all_toList, Vector.all_eq_true, Fin.forall_iff]

/-- The check that RESET makes is R8's list of constraints. -/
theorem configOk_iff (c : Config) : configOk c = true ↔ ConfigLegal c := by
  simp only [configOk, Bool.and_eq_true, decide_eq_true_eq, isDivisor_iff, geometryOk_iff, quadTableOk_iff,
    encIdMapOk_iff]
  constructor
  · rintro ⟨⟨⟨⟨⟨⟨hEnc, hVfo⟩, hGeometry, hRows⟩, hQuad⟩, hIds⟩, hDebounce⟩, hLong⟩
    exact ⟨hEnc, hVfo, hGeometry, hRows, hQuad, hIds, hDebounce, hLong⟩
  · rintro ⟨hEnc, hVfo, hGeometry, hRows, hQuad, hIds, hDebounce, hLong⟩
    exact ⟨⟨⟨⟨⟨⟨hEnc, hVfo⟩, hGeometry, hRows⟩, hQuad⟩, hIds⟩, hDebounce⟩, hLong⟩

/-- RESET completes under a legal configuration (70_reset_and_hazards.md R300). -/
theorem execReset_legal {s : State} (h : ConfigLegal s.cfg) : ∃ t, execReset s = .next t :=
  ⟨_, if_pos ((configOk_iff s.cfg).mpr h)⟩

/-- RESET is refused under an illegal configuration (70_reset_and_hazards.md R300). -/
theorem execReset_illegal {s : State} (h : ¬ ConfigLegal s.cfg) : execReset s = .refused .configuration :=
  if_neg fun hOk => h ((configOk_iff s.cfg).mp hOk)

end Sys2Proof.Machine
end

