-- ==== Sys2Proof/Proofs/Scope/Sampling.lean ====
section
/-! SUPPORT. What a sampling latches (45_tick_scheduler.md R252): the polled channels' samples, by channel. -/

namespace Sys2Proof.Machine

/-- An ordinary channel is polled in both modes (40_quadrature.md R120). -/
theorem pickPolled_ordinary (c : Config) (new old : Vector Phase numChan) (ch : Fin 10) :
    (pickPolled c new old)[ch.castSucc] = new[ch.castSucc] := by
  cases hm : c.vfoMode with
  | polled => rw [pickPolled_polled c new old hm]
  | edge =>
    rw [pickPolled_edge c new old hm]
    exact Vector.getElem_set_ne _ _ ch.isLt.ne'

/-- Channel V is polled in `POLLED` mode only (40_quadrature.md R120). -/
theorem pickPolled_chanV (c : Config) (new old : Vector Phase numChan) :
    (pickPolled c new old)[10] = if c.vfoMode = .polled then new[10] else old[10] := by
  cases hm : c.vfoMode with
  | polled => rw [pickPolled_polled c new old hm, if_pos rfl]
  | edge =>
    rw [pickPolled_edge c new old hm, if_neg (by decide)]
    exact Vector.getElem_set_self _

/-- `TICK_SAMPLE` as one record update (45_tick_scheduler.md R252). -/
theorem exec_tickSample (s : State) :
    exec .tickSample s = .next { s with
      latch := s.latch.sample s.cfg s.world.reading, tphase := .t1Phase, world := s.world.afterReading } := rfl

/-- Without a supplied reading, only the draw index moves in the model's own fields (log 2, log 3). -/
theorem World.afterReading_free (w : World) (h : w.readings = []) : w.afterReading = { w with draws := w.draws + 1 } := by
  simp [World.afterReading, h]

/-- The free reading's phase sample of a channel is the draw of that index and channel (log 2). -/
@[simp] theorem freeReading_phase (k : Nat) (ch : Chan) : (freeReading k).phase[ch] = Config.freePhase k ch.val := by
  simp [freeReading]

end Sys2Proof.Machine
end

