-- ==== Sys2Proof/Proofs/Scope/Wrap.lean ====
section
/-! SUPPORT. The two facts about `wrap_N` beside its specification: congruent values wrap alike, so a value in range is the
wrap of every value congruent to it (00_scope.md R10). -/

namespace Sys2Proof.Machine

/-- `wrap_N` depends on its argument only modulo `2^N`. -/
theorem wrapN_congr {n : Nat} {v r : Int} (h : v ≡ r [ZMOD 2 ^ n]) : wrapN n v = wrapN n r := by
  have hcast : ((2 ^ n : Nat) : Int) = (2 : Int) ^ n := by push_cast; rfl
  have hmod : v % ((2 ^ n : Nat) : Int) = r % ((2 ^ n : Nat) : Int) := hcast ▸ h
  calc wrapN n v = Int.bmod (v % ((2 ^ n : Nat) : Int)) (2 ^ n) := (Int.emod_bmod v _).symm
    _ = Int.bmod (r % ((2 ^ n : Nat) : Int)) (2 ^ n) := by rw [hmod]
    _ = wrapN n r := Int.emod_bmod r _

/-- The value of the signed range that is congruent to `v` is `wrap_N(v)`: there is no second one. -/
theorem wrapN_eq_of_modEq_of_fits {n : Nat} {v r : Int} (h : v ≡ r [ZMOD 2 ^ n]) (hr : Fits n r) : wrapN n v = r :=
  (wrapN_congr h).trans (wrapN_of_fits hr)

end Sys2Proof.Machine
end

