-- ==== Sys2Proof/Proofs/Scope/Settled.lean ====
section
/-! PROOFS. The statements of 00_scope.md's family, settled. -/

namespace Sys2Proof.Machine

/-- Settles O48: the operations that a step runs keep the configuration, and so do using up the act and moving the tick
position. -/
theorem configurationIsFixedFromReset : Obligations.ConfigurationIsFixedFromReset := by
  intro s t h
  obtain ⟨f, u, -, hu, rfl⟩ := step_next h
  have hcfg : u.cfg = s.cfg := (runOps_cfg hu).trans s.popInbox_cfg
  cases f.after with
  | none => exact hcfg
  | some p => exact hcfg

/-- Settles O55: the check that RESET makes is `ConfigLegal`, and the two outcomes exclude each other. -/
theorem resetRefusesIllegalConfigurations : Obligations.ResetRefusesIllegalConfigurations := by
  intro s
  constructor
  · intro hRefused hLegal
    obtain ⟨t, hNext⟩ := execReset_legal hLegal
    cases hRefused.symm.trans hNext
  · exact execReset_illegal

/-- Settles O42: the reading is the free one, of which the polled channels and the ROWS bits are latched. -/
theorem tickSampleCompletesOnDraws : Obligations.TickSampleCompletesOnDraws := by
  intro s hs
  have hReading : s.world.reading = freeReading s.world.draws := s.world.reading_free hs
  refine ⟨_, exec_tickSample s, rfl, World.afterReading_free _ hs, fun ch => ?_, ?_, fun i => ?_⟩
  · calc (pickPolled s.cfg s.world.reading.phase s.latch.smp)[ch.castSucc]
        = s.world.reading.phase[ch.castSucc] := pickPolled_ordinary ..
      _ = Config.freePhase s.world.draws ch.val := by rw [hReading]; exact freeReading_phase _ ch.castSucc
  · calc (pickPolled s.cfg s.world.reading.phase s.latch.smp)[10]
        = if s.cfg.vfoMode = .polled then s.world.reading.phase[10] else s.latch.smp[10] := pickPolled_chanV ..
      _ = if s.cfg.vfoMode = .polled then Config.freePhase s.world.draws 10 else s.latch.smp[10] := by
        rw [hReading, show (freeReading s.world.draws).phase[10] = _ from freeReading_phase _ chanV]
        rfl
  · calc (rowBits s.cfg.rows s.world.reading.rows).getLsbD i
        = (decide (i < s.cfg.rows) && s.world.reading.rows.getLsbD i) := getLsbD_rowBits ..
      _ = (decide (i < s.cfg.rows) && (Config.freeRows s.world.draws).getLsbD i) := by rw [hReading]; rfl

/-- Settles O45: each of the four acts is fetched as its one operation. -/
theorem stepRunsTheDecodedOperation : Obligations.StepRunsTheDecodedOperation := by
  rintro s u acts rfl
  refine ⟨fun b i hs hd => ?_, fun n i hs hd => ?_, fun a b hs => ?_, fun hs => ?_⟩
  all_goals rw [← State.popInbox_of_inbox hs]
  · exact step_of_fetch_single ((fetch_write hs).trans (fetchFrame_of_decode hd))
  · exact step_of_fetch_single ((fetch_read hs).trans (fetchFrame_of_decode hd))
  · exact step_of_fetch_single (fetch_edge hs)
  · exact step_of_fetch_single (fetch_powerOn hs)

/-- Settles O58: `wrap_N(v)` is congruent to `v` and in range, and a congruent value in range is `wrap_N(v)`. -/
theorem wrapIsTheSignedRepresentative : Obligations.WrapIsTheSignedRepresentative := by
  intro n v r
  constructor
  · rintro rfl
    exact ⟨(wrapN_modEq n v).symm, (wrapN_spec n v).2⟩
  · rintro ⟨hCongruent, hRange⟩
    exact wrapN_eq_of_modEq_of_fits hCongruent hRange

end Sys2Proof.Machine
end

