-- ==== Sys2Proof/Proofs/State/Moves.lean ====
section
/-! SUPPORT. What a step can do, said once: which agent moved, and the state it left, with one constructor for each way a step
can answer a next state. Every statement about steps is a case split over it. -/

namespace Sys2Proof.Machine

/-! ### The tick agent's sub-steps (45_tick_scheduler.md R251) -/

/-- The phase samples of the channels `chs` folded into them, in order (45_tick_scheduler.md R253). -/
def Decoder.foldAll (d : Decoder) (c : Config) (smp : Vector Phase numChan) (chs : List Chan) : Decoder :=
  chs.foldl (fun e ch => e.fold c ch smp[ch]) d

/-- The event of an encoder service (40_quadrature.md R127). -/
def State.encEvent (s : State) (ch : Fin 10) : Option Event :=
  if (s.consume (ordinary ch) (-8) 7).1 = 0 then none
  else some
    { kind := kindEncoderStep
      data := encStepData (encoderId s.cfg s.scan.encShift ch) (s.consume (ordinary ch) (-8) 7).1 }

/-- The event of the VFO service (40_quadrature.md R129). -/
def State.vfoEvent (s : State) : Option Event :=
  if (s.gatherVfo.consume chanV (-128) 127).1 = 0 then none
  else some { kind := kindVfoStep, data := vfoStepData (s.gatherVfo.consume chanV (-128) 127).1 }

/-- One step of the sequencer on the latched rows: its next state and its event (41_scan_sequencer.md R151). -/
def State.scanMove (s : State) : Scanner × Option Event :=
  s.scan.next s.cfg (rowClass s.cfg.rows s.latch.rowsmp)

/-- What RESET leaves where it is not refused (70_reset_and_hazards.md R300). -/
def State.poweredOn (s : State) : State :=
  { cfg := s.cfg
    dec := s.dec.afterReset s.cfg s.world.reading
    scan := resetScanner
    queue := resetQueue
    bus := { regsel := s.cfg.regMap.id, ledHost := 0x0000 }
    ledOut := Config.freeLedPort s.world.draws
    latch := freeLatches s.cfg s.world.draws
    tphase := .wait
    world := s.world.afterReading }

/-- The state after the tick agent's sub-step, by the position of `s`. -/
inductive TickMove (s : State) : State → Prop
  | timer (pos : s.tphase = .wait) : TickMove s (s.setTphase .t0Sample)
  | sample (pos : s.tphase = .t0Sample) :
    TickMove s (((s.setLatch (s.latch.sample s.cfg s.world.reading)).setWorld s.world.afterReading).setTphase .t1Phase)
  | phase (pos : s.tphase = .t1Phase) :
    TickMove s ((s.setDec (s.dec.foldAll s.cfg s.latch.smp (polledChans s.cfg))).setTphase (.t2Decode 0))
  | vfo (pos : s.tphase = .t2Decode 0) :
    TickMove s (((s.gatherVfo.consume chanV (-128) 127).2.emitOpt s.vfoEvent).setTphase (afterDecode 0))
  | encoder (ch : Fin 10) (pos : s.tphase = .t2Decode ch.succ) :
    TickMove s (((s.consume (ordinary ch) (-8) 7).2.emitOpt (s.encEvent ch)).setTphase (afterDecode ch.succ))
  | scan (pos : s.tphase = .t3Scan) :
    TickMove s (((s.setScan s.scanMove.1).emitOpt s.scanMove.2).setTphase .t4Led)
  | led (pos : s.tphase = .t4Led) :
    TickMove s ((s.setLedOut (projectLeds s.cfg s.bus.ledHost s.scan.bandShift s.scan.encShift)).setTphase .wait)

/-- The state after a step, by the agent that moved and by its act. A transaction's bytes, a read's register, an edge's mode
and a position of the tick are all the cases there are. -/
inductive Move (s : State) : State → Prop
  | tick {t : State} (turn : s.tickTurn) (sub : TickMove s.popInbox t) : Move s t
  | select (b0 : Byte) (bs : List Byte) (acts : List Act) (act : s.world.inbox = .write (b0 :: bs) :: acts) :
    Move s (s.popInbox.select b0)
  | ledWrite (lo hi : Byte) (bs : List Byte) (acts : List Act)
    (act : s.world.inbox = .write (s.cfg.regMap.led :: lo :: hi :: bs) :: acts) :
    Move s (s.popInbox.setBus { regsel := s.cfg.regMap.led, ledHost := hi ++ lo })
  | readIdent (n : Nat) (acts : List Act) (w : Word) (act : s.world.inbox = .read n :: acts)
    (sel : s.bus.regsel = s.cfg.regMap.id ∨ s.bus.regsel = s.cfg.regMap.hw) :
    Move s ((s.popInbox.setQueue s.queue.clearReady).respond w n)
  | readEvent (n : Nat) (acts : List Act) (act : s.world.inbox = .read n :: acts)
    (sel : s.bus.regsel = s.cfg.regMap.event) :
    Move s ((s.popInbox.setQueue s.queue.pop.2).respond s.queue.pop.1 n)
  | readOther (n : Nat) (acts : List Act) (w : Word) (act : s.world.inbox = .read n :: acts) :
    Move s (s.popInbox.respond w n)
  | edgeCounted (a b : Bool) (acts : List Act) (act : s.world.inbox = .edge a b :: acts) (mode : s.cfg.vfoMode = .edge) :
    Move s (s.popInbox.setDec (s.dec.countEdge s.cfg a b))
  | edgeIgnored (a b : Bool) (acts : List Act) (act : s.world.inbox = .edge a b :: acts)
    (mode : s.cfg.vfoMode = .polled) : Move s s.popInbox
  | powerOn (acts : List Act) (act : s.world.inbox = .powerOn :: acts) : Move s s.popInbox.poweredOn

/-! ### Every step is one of these moves -/

/-- The phase services of T1 run as one fold over the channels (45_tick_scheduler.md R253). -/
theorem runOps_servicePhases (smp : Vector Phase numChan) (chs : List Chan) (s : State) :
    runOps (chs.map fun ch => .servicePhase ch smp[ch]) s = .next (s.setDec (s.dec.foldAll s.cfg smp chs)) := by
  induction chs generalizing s with
  | nil => rfl
  | cons ch chs ih =>
    have hch : exec (.servicePhase ch smp[ch]) s = .next (s.setDec (s.dec.fold s.cfg ch smp[ch])) := rfl
    rw [List.map_cons, runOps_cons_next hch, ih]
    rfl

/-- A decode position is the VFO's or one ordinary channel's (45_tick_scheduler.md R254). -/
theorem tickMove_of_decode {s u : State} {k : Fin 11} (pos : s.tphase = .t2Decode k)
    (h : exec (decodeService k) s = .next u) : TickMove s (u.setTphase (afterDecode k)) := by
  cases k using Fin.cases with
  | zero =>
    rw [show decodeService 0 = .vfoService from rfl, exec_vfoService] at h
    cases h
    exact .vfo pos
  | succ ch =>
    rw [show decodeService ch.succ = .encService ch from rfl, exec_encService] at h
    cases h
    exact .encoder ch pos

/-- What the tick agent's operations leave, with the position advanced. -/
theorem tickMove_of_runOps {s u : State} (h : runOps (tickOps s) s = .next u) :
    TickMove s (u.setTphase (nextTphase s.tphase)) := by
  unfold tickOps at h
  cases pos : s.tphase with
  | wait =>
    simp only [pos] at h
    cases h
    exact .timer pos
  | t0Sample =>
    simp only [pos, runOps_singleton] at h
    cases h
    exact .sample pos
  | t1Phase =>
    simp only [pos, runOps_servicePhases] at h
    cases h
    exact .phase pos
  | t2Decode k =>
    simp only [pos, runOps_singleton] at h
    exact tickMove_of_decode pos h
  | t3Scan =>
    simp only [pos, runOps_singleton] at h
    cases h
    exact .scan pos
  | t4Led =>
    simp only [pos, runOps_singleton] at h
    cases h
    exact .led pos

theorem fetch_tickTurn {s : State} (turn : s.tickTurn) : fetch s = .ok (fetchTick s) := by
  unfold fetch
  obtain hnil | htick := turn
  · rw [hnil]
  · obtain ⟨acts, hs⟩ := List.head?_eq_some_iff.mp htick
    rw [hs]

theorem move_of_tickTurn {s t : State} (turn : s.tickTurn) (h : step s = .next t) : Move s t := by
  obtain ⟨f, u, hf, hu, rfl⟩ := step_next h
  cases (fetch_tickTurn turn).symm.trans hf
  exact .tick turn (tickMove_of_runOps (s := s.popInbox) hu)

/-- A transaction that answers a next state was decoded, and its one operation ran with the act used up. -/
theorem exec_of_frame {s t : State} {f : Frame} (hf : fetch s = fetchFrame s f) (h : step s = .next t) :
    ∃ i, decode s.cfg.regMap f = .ok i ∧ exec i s.popInbox = .next t := by
  cases hd : decode s.cfg.regMap f with
  | error e => simp [step, runFetched, hf, fetchFrame, hd] at h
  | ok i =>
    rw [step_of_fetch_single (hf.trans (fetchFrame_of_decode hd))] at h
    exact ⟨i, rfl, h⟩

/-- A write is a LED write, or it selects (44_bus_protocol.md R221). -/
theorem move_of_write {s t : State} {b : List Byte} {acts : List Act} (act : s.world.inbox = .write b :: acts)
    (h : step s = .next t) : Move s t := by
  obtain ⟨i, hd, he⟩ := exec_of_frame (fetch_write act) h
  match b, act with
  | [], _ => cases hd
  | [b0], act =>
    cases hd
    cases he
    exact .select b0 [] acts act
  | [b0, b1], act =>
    cases hd
    cases he
    exact .select b0 [b1] acts act
  | b0 :: lo :: hi :: bs, act =>
    simp only [decode, decodeWrite] at hd
    split at hd
    · next hled =>
      subst hled
      cases hd
      cases he
      exact .ledWrite lo hi bs acts act
    · cases hd
      cases he
      exact .select b0 (lo :: hi :: bs) acts act

/-- A read transaction that answers a next state leaves the queue and the response it was given (44_bus_protocol.md R228). -/
theorem busRead_next {n : Nat} {w : Word} {q : Queue} {s t : State} (h : busRead n w q s = .next t) :
    t = (s.setQueue q).respond w n := by
  obtain ⟨-, hr⟩ | ⟨-, hr⟩ := busRead_cases n w q s
  · cases hr.symm.trans h
  · cases hr.symm.trans h
    rfl

/-- A read answers by the register that `regsel` names (44_bus_protocol.md R228). -/
theorem move_of_read {s t : State} {n : Nat} {acts : List Act} (act : s.world.inbox = .read n :: acts)
    (h : step s = .next t) : Move s t := by
  obtain ⟨i, hd, he⟩ := exec_of_frame (fetch_read act) h
  simp only [decode, decodeRead] at hd
  split at hd
  · cases hd
  split at hd
  · next hid =>
    cases hd
    cases busRead_next he
    exact .readIdent n acts _ act (.inl hid)
  split at hd
  · next hhw =>
    cases hd
    cases busRead_next he
    exact .readIdent n acts _ act (.inr hhw)
  split at hd
  · cases hd
    cases busRead_next he
    exact .readOther n acts _ act
  split at hd
  · next hevent =>
    cases hd
    cases busRead_next he
    exact .readEvent n acts act hevent
  · cases hd
    cases busRead_next he
    exact .readOther n acts _ act

/-- An edge is counted in `EDGE` mode only (40_quadrature.md R130, R131). -/
theorem move_of_edge {s t : State} {a b : Bool} {acts : List Act} (act : s.world.inbox = .edge a b :: acts)
    (h : step s = .next t) : Move s t := by
  rw [step_of_fetch_single (fetch_edge act)] at h
  change execVfoEdge a b s.popInbox = .next t at h
  cases mode : s.cfg.vfoMode with
  | edge =>
    simp only [execVfoEdge, State.popInbox_cfg, mode] at h
    cases h
    exact .edgeCounted a b acts act mode
  | polled =>
    simp only [execVfoEdge, State.popInbox_cfg, mode] at h
    cases h
    exact .edgeIgnored a b acts act mode

theorem execReset_next {s t : State} (h : execReset s = .next t) : t = s.poweredOn := by
  unfold execReset at h
  split at h
  · cases h
    rfl
  · cases h

theorem move_of_powerOn {s t : State} {acts : List Act} (act : s.world.inbox = .powerOn :: acts)
    (h : step s = .next t) : Move s t := by
  rw [step_of_fetch_single (fetch_powerOn act)] at h
  cases execReset_next h
  exact .powerOn acts act

/-- Every step that answers a next state is one of the moves (00_scope.md R5). -/
theorem step_move {s t : State} (h : step s = .next t) : Move s t := by
  cases hs : s.world.inbox with
  | nil => exact move_of_tickTurn (.inl hs) h
  | cons act acts =>
    cases act with
    | tick => exact move_of_tickTurn (.inr (by rw [hs]; rfl)) h
    | write b => exact move_of_write hs h
    | read n => exact move_of_read hs h
    | edge a b => exact move_of_edge hs h
    | powerOn => exact move_of_powerOn hs h

/-- Where the next act is another agent's, the tick agent does not move. -/
theorem not_tickTurn_of_inbox {s : State} {a : Act} {acts : List Act} (act : s.world.inbox = a :: acts)
    (ha : a ≠ .tick) : ¬ s.tickTurn := by
  simp [State.tickTurn, act, ha]

end Sys2Proof.Machine
end

