-- ==== Sys2Proof/Proofs/State/Frames.lean ====
section
/-! SUPPORT. What a move leaves unchanged, part by part: the tick position, the register interface, the LED port, the sequencer
and the row latch. -/

namespace Sys2Proof.Machine

/-! ### The gathering of the VFO's edges writes the decoder alone (40_quadrature.md R129) -/

@[simp] theorem State.gatherVfo_scan (s : State) : s.gatherVfo.scan = s.scan := by
  unfold State.gatherVfo; split <;> rfl
@[simp] theorem State.gatherVfo_queue (s : State) : s.gatherVfo.queue = s.queue := by
  unfold State.gatherVfo; split <;> rfl
@[simp] theorem State.gatherVfo_bus (s : State) : s.gatherVfo.bus = s.bus := by
  unfold State.gatherVfo; split <;> rfl
@[simp] theorem State.gatherVfo_ledOut (s : State) : s.gatherVfo.ledOut = s.ledOut := by
  unfold State.gatherVfo; split <;> rfl
@[simp] theorem State.gatherVfo_latch (s : State) : s.gatherVfo.latch = s.latch := by
  unfold State.gatherVfo; split <;> rfl

/-! ### The tick position (10_state.md R31) -/

theorem TickMove.tphase {s t : State} (h : TickMove s t) : t.tphase = nextTphase s.tphase := by
  cases h with
  | timer pos | sample pos | phase pos | vfo pos | encoder _ pos | scan pos | led pos =>
    rw [pos]
    rfl

/-! ### The register interface and the LED port (10_state.md R45 to R47) -/

theorem TickMove.bus {s t : State} (h : TickMove s t) : t.bus = s.bus := by
  cases h with
  | timer | sample | phase | vfo | encoder | scan | led => simp

/-- `led_out` changes only at T4 (10_state.md R47). -/
theorem TickMove.ledOut {s t : State} (h : TickMove s t) (hne : t.ledOut ≠ s.ledOut) : s.tphase = .t4Led := by
  cases h with
  | led pos => exact pos
  | timer | sample | phase | vfo | encoder | scan => simp at hne

/-- Who may have written the register interface in a step (10_state.md R45, R46). -/
theorem Move.bus_cases {s t : State} (h : Move s t) :
    t.bus = s.bus ∨
    (∃ b0 bs acts, s.world.inbox = .write (b0 :: bs) :: acts ∧ t.bus = { s.bus with regsel := b0 }) ∨
    (∃ lo hi bs acts, s.world.inbox = .write (s.cfg.regMap.led :: lo :: hi :: bs) :: acts ∧
      t.bus = { regsel := s.cfg.regMap.led, ledHost := hi ++ lo }) ∨
    ∃ acts, s.world.inbox = .powerOn :: acts := by
  cases h with
  | tick _ sub => exact .inl sub.bus
  | select b0 bs acts act => exact .inr (.inl ⟨b0, bs, acts, act, rfl⟩)
  | ledWrite lo hi bs acts act => exact .inr (.inr (.inl ⟨lo, hi, bs, acts, act, rfl⟩))
  | powerOn acts act => exact .inr (.inr (.inr ⟨acts, act⟩))
  | readIdent | readEvent | readOther | edgeCounted | edgeIgnored => exact .inl rfl

/-! ### The sequencer (10_state.md R36 to R41) -/

theorem TickMove.scan_cases {s t : State} (h : TickMove s t) : t.scan = s.scan ∨ t.scan = s.scanMove.1 := by
  cases h with
  | scan => exact .inr (by simp)
  | timer | sample | phase | vfo | encoder | led => exact .inl (by simp)

/-- A step of the block leaves the sequencer, moves it on the latched rows, or resets it. -/
theorem Move.scan_cases {s t : State} (h : Move s t) :
    t.scan = s.scan ∨ t.scan = s.scanMove.1 ∨ t.scan = resetScanner := by
  cases h with
  | tick _ sub =>
    obtain hkept | hmoved := sub.scan_cases
    · exact .inl hkept
    · exact .inr (.inl hmoved)
  | powerOn => exact .inr (.inr rfl)
  | select | ledWrite | readIdent | readEvent | readOther | edgeCounted | edgeIgnored => exact .inl rfl

/-! ### The row latch (10_state.md R48) -/

theorem TickMove.rowsmp_cases {s t : State} (h : TickMove s t) :
    t.latch.rowsmp = s.latch.rowsmp ∨ ∃ v, t.latch.rowsmp = rowBits s.cfg.rows v := by
  cases h with
  | sample => exact .inr ⟨_, rfl⟩
  | timer | phase | vfo | encoder | scan | led => exact .inl (by simp)

/-- A step leaves the row latch, or latches the `ROWS` bits of a vector. -/
theorem Move.rowsmp_cases {s t : State} (h : Move s t) :
    t.latch.rowsmp = s.latch.rowsmp ∨ ∃ v, t.latch.rowsmp = rowBits s.cfg.rows v := by
  cases h with
  | tick _ sub => exact sub.rowsmp_cases
  | powerOn => exact .inr ⟨_, rfl⟩
  | select | ledWrite | readIdent | readEvent | readOther | edgeCounted | edgeIgnored => exact .inl rfl

end Sys2Proof.Machine
end

