-- ==== Sys2Proof/Proofs/State/Contents.lean ====
section
/-! SUPPORT. The events held (42_event_queue.md R190, R199): what an enqueue and a dequeue do to them and to the ready line. -/

namespace Sys2Proof.Machine

@[simp] theorem Queue.contents_length (q : Queue) : q.contents.length = q.depth := by
  simp [Queue.contents]

theorem Queue.contents_eq_nil_iff (q : Queue) : q.contents = [] ↔ q.depth = 0 := by
  rw [← List.length_eq_zero_iff, q.contents_length]

/-- The slot after the newest event is the write index (42_event_queue.md R191). -/
theorem Queue.readIndex_add_depth (q : Queue) : q.r + BitVec.ofNat 4 (q.w - q.r).toNat = q.w := by
  rw [BitVec.ofNat_toNat, BitVec.setWidth_eq, add_sub_cancel]

/-- No slot of an event held is at the write index. -/
theorem Queue.readIndex_add_ne {q : Queue} {i : Nat} (h : i < q.depth) : (q.r + BitVec.ofNat 4 i).toNat ≠ q.w.toNat := by
  intro heq
  have hi : (BitVec.ofNat 4 i) = q.w - q.r := by
    rw [← BitVec.eq_of_toNat_eq heq]
    simp
  have hlt : i < 16 := h.trans (q.w - q.r).isLt
  have : i = q.depth := by
    rw [Queue.depth, ← hi, BitVec.toNat_ofNat, Nat.mod_eq_of_lt hlt]
  omega

/-- Room for one more: the depth grows by one without wrapping (42_event_queue.md R191). -/
theorem Queue.depth_succ {w r : BitVec 4} (h : w + 1 ≠ r) : (w + 1 - r).toNat = (w - r).toNat + 1 := by
  bv_omega

/-- A successful enqueue appends its event at the end (42_event_queue.md R193, R194). -/
theorem Queue.contents_push {q : Queue} (e : Event) (h : q.w + 1 ≠ q.r) :
    ({ slot := q.slot.set q.w.toNat e, w := q.w + 1, r := q.r, ready := true } : Queue).contents = q.contents ++ [e] := by
  have hdepth : (q.w + 1 - q.r).toNat = q.depth + 1 := Queue.depth_succ h
  simp only [Queue.contents, Queue.depth, hdepth, List.range_succ, List.map_append, List.map_cons, List.map_nil]
  congr 1
  · refine List.map_congr_left fun i hi => Vector.getElem_set_ne _ _ ?_
    exact (Queue.readIndex_add_ne (List.mem_range.mp hi)).symm
  · simp only [q.readIndex_add_depth, Vector.getElem_set_self]

/-- What an enqueue does to the events held and to the ready line (42_event_queue.md R192, R194). -/
theorem Queue.push_contents_cases (q : Queue) (e : Event) :
    q.push e = q ∨ (q.push e).contents = q.contents ++ [e] ∧ (q.push e).ready = true := by
  obtain ⟨-, hfull⟩ | ⟨hroom, hpush⟩ := q.push_cases e
  · exact .inl hfull
  · exact .inr (hpush ▸ ⟨Queue.contents_push e hroom, rfl⟩)

/-- Past the oldest event lie the others, in order (42_event_queue.md R199). -/
theorem Queue.contents_advance {q : Queue} (h : q.depth ≠ 0) (b : Bool) :
    ({ q with r := q.r + 1, ready := b } : Queue).contents = q.contents.tail := by
  obtain ⟨k, hk⟩ := Nat.exists_eq_succ_of_ne_zero h
  have hk' : (q.w - q.r).toNat = k + 1 := hk
  have hdepth : (q.w - (q.r + 1)).toNat = k := by bv_omega
  simp only [Queue.contents, Queue.depth, hdepth, hk', List.range_succ_eq_map, List.map_cons, List.map_map, List.tail_cons]
  refine List.map_congr_left fun i _ => ?_
  have hidx : q.r + 1 + BitVec.ofNat 4 i = q.r + BitVec.ofNat 4 (i + 1) := by
    rw [BitVec.ofNat_add, add_assoc, add_comm 1]
    rfl
  simp only [hidx, Function.comp_apply, Nat.succ_eq_add_one]

/-- What a dequeue does to the events held (42_event_queue.md R195). -/
theorem Queue.contents_pop (q : Queue) : q.pop.2.contents = q.contents.tail := by
  obtain ⟨h, hpop⟩ | ⟨h, hpop⟩ | ⟨h, hpop⟩ := q.pop_cases
  · rw [hpop, (Queue.contents_eq_nil_iff q).mpr h]
    exact (Queue.contents_eq_nil_iff q).mpr h
  · rw [hpop]
    exact Queue.contents_advance (by omega) false
  · rw [hpop]
    exact Queue.contents_advance (by omega) q.ready

/-- After a dequeue the ready line is up exactly where it was up with two events or more held (42_event_queue.md R197). -/
theorem Queue.ready_pop (q : Queue) : q.pop.2.ready = true ↔ q.ready = true ∧ 2 ≤ q.depth := by
  obtain ⟨h, hpop⟩ | ⟨h, hpop⟩ | ⟨h, hpop⟩ := q.pop_cases <;> simp [hpop, h]

@[simp] theorem resetQueue_ready : resetQueue.ready = false := rfl

end Sys2Proof.Machine
end

