-- ==== Sys2Proof/Proofs/State/Events.lean ====
section
/-! SUPPORT. Which events the block appends, and who writes the queue: the legal kinds and report codes (30_encoding.md R99,
R100), and the queue's invariants under each of its writers. -/

namespace Sys2Proof.Machine

/-! ### Legal events -/

/-- A kind of 30_encoding.md R100, and for a button event a report code that is forwarded (R99). -/
structure Event.Legal (e : Event) : Prop where
  kind : 1 ≤ e.kind.toNat ∧ e.kind.toNat ≤ 5
  code : 3 ≤ e.kind.toNat → e.data ≠ 0 ∧ e.data ≠ 0xFF

theorem State.encEvent_legal {s : State} {ch : Fin 10} : ∀ e ∈ s.encEvent ch, e.Legal := by
  intro e he
  unfold State.encEvent at he
  split at he
  · cases he
  · cases he
    exact ⟨(by decide : 1 ≤ kindEncoderStep.toNat ∧ kindEncoderStep.toNat ≤ 5),
      fun h => absurd h (by decide : ¬ 3 ≤ kindEncoderStep.toNat)⟩

theorem State.vfoEvent_legal {s : State} : ∀ e ∈ s.vfoEvent, e.Legal := by
  intro e he
  unfold State.vfoEvent at he
  split at he
  · cases he
  · cases he
    exact ⟨(by decide : 1 ≤ kindVfoStep.toNat ∧ kindVfoStep.toNat ≤ 5),
      fun h => absurd h (by decide : ¬ 3 ≤ kindVfoStep.toNat)⟩

/-- A report is a legal event where its kind is a button kind (41_scan_sequencer.md R173, R174). -/
theorem Scanner.report_legal {x : Scanner} {c : Config} {kind : Kind} (hk : 3 ≤ kind.toNat ∧ kind.toNat ≤ 5) :
    ∀ e ∈ x.report c kind, e.Legal := by
  intro e he
  obtain ⟨-, -, rfl, hzero, hnone⟩ := Scanner.report_some he
  exact ⟨⟨by omega, hk.2⟩, fun _ => ⟨hzero, hnone⟩⟩

theorem Scanner.report_press_legal {x : Scanner} {c : Config} : ∀ e ∈ x.report c kindButtonPress, e.Legal :=
  Scanner.report_legal (by decide)
theorem Scanner.report_longPress_legal {x : Scanner} {c : Config} : ∀ e ∈ x.report c kindButtonLongPress, e.Legal :=
  Scanner.report_legal (by decide)
theorem Scanner.report_release_legal {x : Scanner} {c : Config} : ∀ e ∈ x.report c kindButtonRelease, e.Legal :=
  Scanner.report_legal (by decide)

theorem Event.legal_of_mem_none : ∀ e ∈ (none : Option Event), e.Legal := nofun

/-- A confirmed press reports a legal event or none (41_scan_sequencer.md R170). -/
theorem Scanner.confirmPress_legal (x : Scanner) (c : Config) : ∀ e ∈ (x.confirmPress c).2, e.Legal := by
  obtain ⟨-, h⟩ | ⟨-, h⟩ | ⟨-, -, h⟩ := x.confirmPress_cases c
  · rw [h]; exact Event.legal_of_mem_none
  · rw [h]; exact Event.legal_of_mem_none
  · rw [h]; exact Scanner.report_press_legal

/-- What the sequencer emits in one step is a legal event or none, from each of its states (41_scan_sequencer.md R151). -/
theorem Scanner.next_legal (x : Scanner) (c : Config) (rc : RowClass) : ∀ e ∈ (x.next c rc).2, e.Legal := by
  unfold Scanner.next
  cases x.state with
  | idle => cases rc <;> exact Event.legal_of_mem_none
  | waitPressed =>
    simp only [Scanner.stepWaitPressed]
    split_ifs
    · exact Scanner.confirmPress_legal _ c
    all_goals exact Event.legal_of_mem_none
  | pressed =>
    simp only [Scanner.stepPressed]
    split_ifs
    · exact Scanner.report_longPress_legal
    · exact Event.legal_of_mem_none
    · exact Event.legal_of_mem_none
    · exact Event.legal_of_mem_none
    · exact Scanner.report_release_legal
  | waitReleased =>
    simp only [Scanner.stepWaitReleased]
    split_ifs
    · exact Scanner.report_release_legal
    all_goals exact Event.legal_of_mem_none
  | multiPressed =>
    simp only [Scanner.stepMultiPressed]
    split_ifs <;> exact Event.legal_of_mem_none
  | waitMultiReleased =>
    simp only [Scanner.stepWaitMultiReleased]
    split_ifs <;> exact Event.legal_of_mem_none

/-! ### Who writes the queue (42_event_queue.md R192, R195; 44_bus_protocol.md R224, R225, R227) -/

theorem State.emitOpt_queue_cases {s : State} {o : Option Event} (h : ∀ e ∈ o, e.Legal) :
    (s.emitOpt o).queue = s.queue ∨ ∃ e, e.Legal ∧ (s.emitOpt o).queue = s.queue.push e := by
  cases o with
  | none => exact .inl rfl
  | some e => exact .inr ⟨e, h e rfl, rfl⟩

/-- The tick agent leaves the queue, or enqueues one legal event. -/
theorem TickMove.queue_cases {s t : State} (h : TickMove s t) :
    t.queue = s.queue ∨ ∃ e : Event, e.Legal ∧ t.queue = s.queue.push e := by
  cases h with
  | timer | sample | phase | led => exact .inl rfl
  | vfo =>
    have hcases := (s.gatherVfo.consume chanV (-128) 127).2.emitOpt_queue_cases s.vfoEvent_legal
    simpa using hcases
  | encoder ch =>
    have hcases := (s.consume (ordinary ch) (-8) 7).2.emitOpt_queue_cases (s.encEvent_legal (ch := ch))
    simpa using hcases
  | scan =>
    have hcases := (s.setScan s.scanMove.1).emitOpt_queue_cases (o := s.scanMove.2) (s.scan.next_legal s.cfg _)
    simpa using hcases

/-- A step leaves the queue, enqueues one legal event in the tick agent's turn, clears the ready line or dequeues in a read of
the register that does so, or resets the queue. -/
theorem Move.queue_cases {s t : State} (h : Move s t) :
    t.queue = s.queue ∨
    (s.tickTurn ∧ ∃ e : Event, e.Legal ∧ t.queue = s.queue.push e) ∨
    (∃ n acts, s.world.inbox = .read n :: acts ∧
      ((s.bus.regsel = s.cfg.regMap.id ∨ s.bus.regsel = s.cfg.regMap.hw) ∧ t.queue = s.queue.clearReady ∨
        s.bus.regsel = s.cfg.regMap.event ∧ t.queue = s.queue.pop.2)) ∨
    ((∃ acts, s.world.inbox = .powerOn :: acts) ∧ t.queue = resetQueue) := by
  cases h with
  | tick turn sub =>
    obtain hkept | hpushed := sub.queue_cases
    · exact .inl hkept
    · exact .inr (.inl ⟨turn, hpushed⟩)
  | readIdent n acts _ act sel => exact .inr (.inr (.inl ⟨n, acts, act, .inl ⟨sel, rfl⟩⟩))
  | readEvent n acts act sel => exact .inr (.inr (.inl ⟨n, acts, act, .inr ⟨sel, rfl⟩⟩))
  | powerOn acts act => exact .inr (.inr (.inr ⟨⟨acts, act⟩, rfl⟩))
  | select | ledWrite | readOther | edgeCounted | edgeIgnored => exact .inl rfl

/-! ### The queue's invariants (10_state.md R52 (5)) -/

/-- The queue's invariants are the ready rule and the legality of the events held. -/
theorem queueInv_iff (q : Queue) : QueueInv q ↔ (q.ready = true → 0 < q.depth) ∧ ∀ e ∈ q.contents, e.Legal := by
  constructor
  · rintro ⟨hready, hkinds, hcodes⟩
    exact ⟨hready, fun e he => ⟨hkinds e he, hcodes e he⟩⟩
  · rintro ⟨hready, hlegal⟩
    exact ⟨hready, fun e he => (hlegal e he).kind, fun e he => (hlegal e he).code⟩

theorem QueueInv.push {q : Queue} {e : Event} (h : QueueInv q) (he : e.Legal) : QueueInv (q.push e) := by
  obtain ⟨-, hlegal⟩ := (queueInv_iff q).mp h
  obtain hfull | ⟨hcontents, -⟩ := q.push_contents_cases e
  · rwa [hfull]
  · refine (queueInv_iff _).mpr ⟨fun _ => ?_, ?_⟩
    · rw [← Queue.contents_length, hcontents]
      simp
    · rw [hcontents]
      simpa [or_imp, forall_and, he] using hlegal

theorem QueueInv.clearReady {q : Queue} (h : QueueInv q) : QueueInv q.clearReady :=
  ⟨nofun, h.kinds, h.codes⟩

theorem QueueInv.pop {q : Queue} (h : QueueInv q) : QueueInv q.pop.2 := by
  obtain ⟨-, hlegal⟩ := (queueInv_iff q).mp h
  refine (queueInv_iff _).mpr ⟨fun hr => ?_, fun e he => ?_⟩
  · obtain ⟨-, hdepth⟩ := q.ready_pop.mp hr
    rw [← Queue.contents_length, q.contents_pop, List.length_tail, q.contents_length]
    omega
  · rw [q.contents_pop] at he
    exact hlegal e (List.mem_of_mem_tail he)

theorem resetQueue_inv : QueueInv resetQueue := ⟨nofun, nofun, nofun⟩

/-- Every step keeps the queue's invariants. -/
theorem Move.queueInv {s t : State} (h : Move s t) (hq : QueueInv s.queue) : QueueInv t.queue := by
  obtain hkept | ⟨-, e, he, hpush⟩ | ⟨-, -, -, ⟨-, hclear⟩ | ⟨-, hpop⟩⟩ | ⟨-, hreset⟩ := h.queue_cases
  · rwa [hkept]
  · rw [hpush]; exact hq.push he
  · rw [hclear]; exact hq.clearReady
  · rw [hpop]; exact hq.pop
  · rw [hreset]; exact resetQueue_inv

end Sys2Proof.Machine
end

