-- ==== Sys2Proof/Proofs/State/Ready.lean ====
section
/-! SUPPORT. The ready line (10_state.md R44, 42_event_queue.md R200): where it falls and where it rises, by who writes the
queue. -/

namespace Sys2Proof.Machine

/-- Where the ready line falls over a dequeue, at most one event was held, and none is afterwards (42_event_queue.md R197). -/
theorem Queue.contents_pop_of_ready_falls {q : Queue} (hup : q.ready = true) (hdown : q.pop.2.ready = false) :
    q.pop.2.contents = [] := by
  have hdepth : ¬ 2 ≤ q.depth := fun h => by simp [q.ready_pop.mpr ⟨hup, h⟩] at hdown
  rw [q.contents_pop, ← List.length_eq_zero_iff, List.length_tail, q.contents_length]
  omega

/-- The ready line falls only in a read that clears it or empties the queue, and at power-on. -/
theorem Move.ready_falls {s t : State} (h : Move s t) (hup : s.queue.ready = true) (hdown : t.queue.ready = false) :
    (∃ n acts, s.world.inbox = .read n :: acts ∧
      (s.bus.regsel = s.cfg.regMap.id ∨ s.bus.regsel = s.cfg.regMap.hw ∨
        s.bus.regsel = s.cfg.regMap.event ∧ t.queue.contents = [])) ∨
    ∃ acts, s.world.inbox = .powerOn :: acts := by
  obtain hkept | ⟨-, e, -, hpush⟩ | ⟨n, acts, act, ⟨sel, -⟩ | ⟨sel, hpop⟩⟩ | ⟨hOn, -⟩ := h.queue_cases
  · simp [hkept, hup] at hdown
  · obtain hfull | ⟨-, hready⟩ := s.queue.push_contents_cases e
    · simp [hpush, hfull, hup] at hdown
    · simp [hpush, hready] at hdown
  · exact .inl ⟨n, acts, act, sel.imp_right .inl⟩
  · rw [hpop] at hdown ⊢
    exact .inl ⟨n, acts, act, .inr (.inr ⟨sel, Queue.contents_pop_of_ready_falls hup hdown⟩)⟩
  · exact .inr hOn

/-- The ready line rises only where the tick agent appends an event. -/
theorem Move.ready_rises {s t : State} (h : Move s t) (hdown : s.queue.ready = false) (hup : t.queue.ready = true) :
    s.tickTurn ∧ ∃ e, t.queue.contents = s.queue.contents ++ [e] := by
  obtain hkept | ⟨turn, e, -, hpush⟩ | ⟨-, -, -, ⟨-, hclear⟩ | ⟨-, hpop⟩⟩ | ⟨-, hreset⟩ := h.queue_cases
  · simp [hkept, hdown] at hup
  · obtain hfull | ⟨hcontents, -⟩ := s.queue.push_contents_cases e
    · simp [hpush, hfull, hdown] at hup
    · exact ⟨turn, e, hpush ▸ hcontents⟩
  · simp [hclear] at hup
  · simp [hpop, s.queue.ready_pop, hdown] at hup
  · simp [hreset] at hup

end Sys2Proof.Machine
end

