-- ==== Sys2Proof/Proofs/State/ScannerInvariant.lean ====
section
/-! SUPPORT. The sequencer's invariants (10_state.md R52 (2), (3)) under each of its six states' steps. -/

namespace Sys2Proof.Machine

/-! ### Rows and the ways to enter a state -/

/-- A classified row is one of the `ROWS` rows (30_encoding.md R95). -/
theorem rowClass_row_lt {rows : Nat} {v : RowVec} {r : Nat} (h : rowClass rows v = .row r) : r < rows := by
  unfold rowClass at h
  split at h
  · cases h
  · next q hq =>
    cases h
    exact ((mem_setRows rows v r).mp (by simp [hq])).1
  · cases h

theorem ConfigLegal.cols_pos {c : Config} (hc : ConfigLegal c) : 0 < c.cols :=
  Nat.pos_of_ne_zero fun h => absurd hc.geometry (by simp [h])

/-- Entering a state loads the countdown (41_scan_sequencer.md R167). -/
theorem ScannerInv.enter {c : Config} {x : Scanner} (hc : ConfigLegal c) (hx : ScannerInv c x) (st : ScanState) :
    ScannerInv c (x.enter c st) :=
  ⟨le_rfl, hx.lpcnt, hx.col, hx.row, fun _ => hc.debounce⟩

/-- The countdown of a waiting state that has not run out (41_scan_sequencer.md R167). -/
theorem ScannerInv.countDown {c : Config} {x : Scanner} (hx : ScannerInv c x) (h : x.countDown.dcnt ≠ 0) :
    ScannerInv c x.countDown :=
  ⟨(Nat.sub_le _ _).trans hx.dcnt, hx.lpcnt, hx.col, hx.row, fun _ => Nat.pos_of_ne_zero h⟩

/-- The countdown has run out and the sequencer stops waiting. -/
theorem ScannerInv.settle {c : Config} {x : Scanner} (hx : ScannerInv c x) {st : ScanState} (hst : st.isWaiting = false) :
    ScannerInv c { x.countDown with state := st } :=
  ⟨(Nat.sub_le _ _).trans hx.dcnt, hx.lpcnt, hx.col, hx.row, by simp [hst]⟩

/-- The countdown has run out and the sequencer enters another waiting state. -/
theorem ScannerInv.reenter {c : Config} {x : Scanner} (hc : ConfigLegal c) (hx : ScannerInv c x) (st : ScanState) :
    ScannerInv c (x.countDown.enter c st) :=
  ⟨le_rfl, hx.lpcnt, hx.col, hx.row, fun _ => hc.debounce⟩

/-- A confirmed press writes at most a shift toggle (41_scan_sequencer.md R170). -/
theorem ScannerInv.confirmPress {c : Config} {x : Scanner} (hx : ScannerInv c x) : ScannerInv c (x.confirmPress c).1 := by
  obtain ⟨-, h⟩ | ⟨-, h⟩ | ⟨-, -, h⟩ := x.confirmPress_cases c <;> rw [h]
  · exact ⟨hx.dcnt, hx.lpcnt, hx.col, hx.row, hx.waiting⟩
  · exact ⟨hx.dcnt, hx.lpcnt, hx.col, hx.row, hx.waiting⟩
  · exact hx

/-! ### The six steps (41_scan_sequencer.md R153 to R166) -/

theorem ScannerInv.stepIdle {c : Config} {x : Scanner} {rc : RowClass} (hc : ConfigLegal c) (hx : ScannerInv c x)
    (hrc : ∀ r, rc = .row r → r < c.rows) : ScannerInv c (x.stepIdle c rc).1 := by
  cases rc with
  | none => exact ⟨hx.dcnt, hx.lpcnt, Nat.mod_lt _ hc.cols_pos, hx.row, hx.waiting⟩
  | row r => exact ⟨le_rfl, hx.lpcnt, hx.col, hrc r rfl, fun _ => hc.debounce⟩
  | multi => exact hx.enter hc .multiPressed

theorem ScannerInv.stepWaitPressed {c : Config} {x : Scanner} {rc : RowClass} (hc : ConfigLegal c) (hx : ScannerInv c x) :
    ScannerInv c (x.stepWaitPressed c rc).1 := by
  simp only [Scanner.stepWaitPressed]
  split_ifs with hdone
  · exact ScannerInv.confirmPress ⟨(Nat.sub_le _ _).trans hx.dcnt, le_rfl, hx.col, hx.row, nofun⟩
  · exact hx.reenter hc .multiPressed
  · exact hx.countDown hdone

theorem ScannerInv.stepPressed {c : Config} {x : Scanner} {rc : RowClass} (hc : ConfigLegal c) (hx : ScannerInv c x) :
    ScannerInv c (x.stepPressed c rc).1 := by
  have hcounted : ScannerInv c { x with lpcnt := x.lpcnt - 1 } :=
    ⟨hx.dcnt, (Nat.sub_le _ _).trans hx.lpcnt, hx.col, hx.row, hx.waiting⟩
  simp only [Scanner.stepPressed]
  split_ifs
  · exact hcounted
  · exact hcounted
  · exact hx
  · exact hx.enter hc .waitReleased
  · exact hx.enter hc .multiPressed

theorem ScannerInv.stepWaitReleased {c : Config} {x : Scanner} {rc : RowClass} (hc : ConfigLegal c) (hx : ScannerInv c x) :
    ScannerInv c (x.stepWaitReleased c rc).1 := by
  simp only [Scanner.stepWaitReleased]
  split_ifs with hdone
  · exact hx.settle rfl
  · exact hx.settle rfl
  · exact hx.reenter hc .multiPressed
  · exact hx.countDown hdone

theorem ScannerInv.stepMultiPressed {c : Config} {x : Scanner} {rc : RowClass} (hc : ConfigLegal c) (hx : ScannerInv c x) :
    ScannerInv c (x.stepMultiPressed c rc).1 := by
  simp only [Scanner.stepMultiPressed]
  split_ifs with hdone
  · exact hx.reenter hc .waitMultiReleased
  · exact hx.reenter hc .multiPressed
  · exact hx.countDown hdone

theorem ScannerInv.stepWaitMultiReleased {c : Config} {x : Scanner} {rc : RowClass} (hc : ConfigLegal c)
    (hx : ScannerInv c x) : ScannerInv c (x.stepWaitMultiReleased c rc).1 := by
  simp only [Scanner.stepWaitMultiReleased]
  split_ifs with hdone
  · exact hx.settle rfl
  · exact hx.reenter hc .multiPressed
  · exact hx.countDown hdone

/-- One step of the sequencer keeps its invariants, from each of its states (41_scan_sequencer.md R151). -/
theorem ScannerInv.next {c : Config} {x : Scanner} {rc : RowClass} (hc : ConfigLegal c) (hx : ScannerInv c x)
    (hrc : ∀ r, rc = .row r → r < c.rows) : ScannerInv c (x.next c rc).1 := by
  unfold Scanner.next
  cases x.state with
  | idle => exact hx.stepIdle hc hrc
  | waitPressed => exact hx.stepWaitPressed hc
  | pressed => exact hx.stepPressed hc
  | waitReleased => exact hx.stepWaitReleased hc
  | multiPressed => exact hx.stepMultiPressed hc
  | waitMultiReleased => exact hx.stepWaitMultiReleased hc

theorem resetScanner_inv {c : Config} (hc : ConfigLegal c) : ScannerInv c resetScanner :=
  ⟨Nat.zero_le _, Nat.zero_le _, hc.cols_pos, (by decide : 0 < 4).trans_le hc.rows, nofun⟩

/-- Every step keeps the sequencer's invariants. -/
theorem Move.scannerInv {s t : State} (h : Move s t) (hc : ConfigLegal s.cfg) (hx : ScannerInv s.cfg s.scan) :
    ScannerInv s.cfg t.scan := by
  obtain hkept | hmoved | hreset := h.scan_cases
  · rwa [hkept]
  · rw [hmoved]
    exact hx.next hc fun _ => rowClass_row_lt
  · rw [hreset]
    exact resetScanner_inv hc

end Sys2Proof.Machine
end

