-- ==== Sys2Proof/Proofs/State/Accumulators.lean ====
section
/-! SUPPORT. The accumulators by channel: what a write, the phase services of a tick, the VFO's gathering and a consumption do
to each of them, and by how much (40_quadrature.md R121, R123, R129). -/

namespace Sys2Proof.Machine

/-! ### One channel at a time -/

theorem Decoder.setAcc_acc_self (d : Decoder) (ch : Chan) (a : Int) : (d.setAcc ch a).acc[ch] = a :=
  Vector.getElem_set_self _

theorem Decoder.setAcc_acc_other (d : Decoder) {ch k : Chan} (a : Int) (h : k ≠ ch) : (d.setAcc ch a).acc[k] = d.acc[k] :=
  Vector.getElem_set_ne ch.isLt k.isLt fun e => h (Fin.ext e.symm)

theorem castSucc_ne_chanV (ch : Fin 10) : ch.castSucc ≠ chanV := (Fin.castSucc_lt_last ch).ne

@[simp] theorem divisor_ordinary (c : Config) (ch : Fin 10) : divisor c (ordinary ch) = c.encDiv :=
  if_neg (castSucc_ne_chanV ch)

@[simp] theorem divisor_chanV (c : Config) : divisor c chanV = c.vfoDiv := if_pos rfl

/-! ### The phase services of a tick (45_tick_scheduler.md R253) -/

theorem polledChans_nodup (c : Config) : (polledChans c).Nodup := by
  unfold polledChans
  split <;> decide

theorem ordinary_mem_polledChans (c : Config) (ch : Fin 10) : ch.castSucc ∈ polledChans c := by
  have hord : ∀ ch : Fin 10, ch.castSucc ∈ ordinaryChans := by decide
  unfold polledChans
  split
  · exact List.mem_append_left _ (hord ch)
  · exact hord ch

theorem chanV_mem_polledChans {c : Config} (h : c.vfoMode = .polled) : chanV ∈ polledChans c := by
  simp [polledChans, h]

@[simp] theorem Decoder.foldAll_vfoRaw (d : Decoder) (c : Config) (smp : Vector Phase numChan) (chs : List Chan) :
    (d.foldAll c smp chs).vfoRaw = d.vfoRaw := by
  induction chs generalizing d with
  | nil => rfl
  | cons ch chs ih => exact ih _

/-- A channel that is not serviced keeps its accumulator. -/
theorem Decoder.foldAll_acc_of_notMem (d : Decoder) (c : Config) (smp : Vector Phase numChan) {chs : List Chan} {k : Chan}
    (h : k ∉ chs) : (d.foldAll c smp chs).acc[k] = d.acc[k] := by
  induction chs generalizing d with
  | nil => rfl
  | cons ch chs ih =>
    obtain ⟨hne, hrest⟩ := List.ne_and_not_mem_of_not_mem_cons h
    exact (ih _ hrest).trans (d.fold_acc_other c _ hne)

/-- A channel that is serviced once adds one table entry, wrapped (40_quadrature.md R121). -/
theorem Decoder.foldAll_acc_of_mem (d : Decoder) (c : Config) (smp : Vector Phase numChan) {chs : List Chan} {k : Chan}
    (hnodup : chs.Nodup) (h : k ∈ chs) :
    ∃ idx, (d.foldAll c smp chs).acc[k] = wrapAcc c (d.acc[k] + contribution c idx) := by
  induction chs generalizing d with
  | nil => cases h
  | cons ch chs ih =>
    obtain ⟨hnotMem, hnodup'⟩ := List.nodup_cons.mp hnodup
    by_cases hk : k = ch
    · subst hk
      exact ⟨_, (Decoder.foldAll_acc_of_notMem _ c smp hnotMem).trans (d.fold_acc_self c k _)⟩
    · obtain ⟨idx, hidx⟩ := ih (d.fold c ch smp[ch]) hnodup' (List.mem_of_ne_of_mem hk h)
      exact ⟨idx, by rw [← d.fold_acc_other c smp[ch] hk]; exact hidx⟩

theorem abs_contribution_le {c : Config} (hc : ConfigLegal c) (idx : BitVec 4) : |contribution c idx| ≤ 2 :=
  abs_le.mpr (hc.quadTable idx.toFin)

/-- One table entry moves an accumulator by at most 2 in magnitude, wrapped or not (40_quadrature.md R121, R126). -/
theorem abs_wrapAcc_add_contribution_le {c : Config} (hc : ConfigLegal c) (a : Int) (idx : BitVec 4) :
    |wrapAcc c (a + contribution c idx)| ≤ |a| + 2 :=
  calc |wrapAcc c (a + contribution c idx)| ≤ |a + contribution c idx| := abs_wrapN_le _ _
    _ ≤ |a| + |contribution c idx| := abs_add_le _ _
    _ ≤ |a| + 2 := by have := abs_contribution_le hc idx; omega

/-! ### The gathering of the VFO's edges (40_quadrature.md R129) -/

theorem State.gatherVfo_dec_edge {s : State} (h : s.cfg.vfoMode = .edge) : s.gatherVfo.dec = s.dec.moveRaw s.cfg := by
  simp [State.gatherVfo, h]

theorem State.gatherVfo_polled {s : State} (h : s.cfg.vfoMode = .polled) : s.gatherVfo = s := by
  simp [State.gatherVfo, h]

/-! ### Consumption (40_quadrature.md R123, R137) -/

theorem divisor_pos {d : Nat} (h : d = 1 ∨ d = 2 ∨ d = 4) : 1 ≤ d := by omega

/-- A consumption that the payload range does not clamp leaves less than one step: an accumulator of at most `D + 1` in
magnitude holds at most two steps. -/
theorem abs_consumed_le {d : Nat} {lo hi acc : Int} (hd : 1 ≤ d) (hlo : lo ≤ -2) (hhi : 2 ≤ hi) (h : |acc| ≤ d + 1) :
    |(consumed d lo hi acc).2| ≤ d - 1 := by
  rw [Int.abs_eq_natAbs] at h ⊢
  have hquot : (Int.tdiv acc d).natAbs ≤ 2 := by
    rw [Int.natAbs_tdiv, Int.natAbs_natCast]
    exact Nat.div_le_of_le_mul (by omega)
  have hresidue : (consumed d lo hi acc).2 = Int.tmod acc d := by
    have hclamp : clamp (Int.tdiv acc d) lo hi = Int.tdiv acc d := clamp_of_mem (by omega) (by omega)
    have hsplit := Int.tmod_add_mul_tdiv acc d
    simp only [consumed, hclamp]
    linarith
  have hlt : (Int.tmod acc d).natAbs < d := by
    rw [Int.natAbs_tmod, Int.natAbs_natCast]
    exact Nat.mod_lt _ hd
  rw [hresidue]
  omega

end Sys2Proof.Machine
end

