-- ==== Sys2Proof/Proofs/State/DecoderInvariant.lean ====
section
/-! SUPPORT. The decoder's invariants (10_state.md R52 (4), 40_quadrature.md R137) under each move: the bound on an accumulator
widens at T1, and narrows as the tick passes the channel's own service. -/

namespace Sys2Proof.Machine

theorem fits_zero (n : Nat) : Fits n 0 := by
  have hpos : (0 : Int) < 2 ^ n := by positivity
  unfold Fits
  omega

theorem wrapAcc_fits (c : Config) (v : Int) : Fits c.accWidth (wrapAcc c v) := (wrapN_spec c.accWidth v).2

/-! ### The bound by tick position -/

theorem accBound_ge (d k : Nat) (t : TPhase) : (d : Int) - 1 ≤ accBound d k t := by
  cases t with
  | t2Decode j =>
    simp only [accBound]
    split <;> omega
  | wait | t0Sample | t1Phase | t3Scan | t4Led => exact le_rfl

/-- The bound after the service at position `j`: narrow for what `j` and the positions before it serve. -/
theorem accBound_afterDecode (d k : Nat) (hk : k ≤ 10) (j : Fin 11) :
    accBound d k (afterDecode j) = if j.val < k then (d : Int) + 1 else d - 1 := by
  unfold afterDecode
  split
  · rfl
  · rw [if_neg (by omega)]
    rfl

/-- A service narrows no bound but that of the channel it serves. -/
theorem accBound_le_afterDecode {d k : Nat} {j : Fin 11} (hk : k ≤ 10) (h : k ≠ j.val) :
    accBound d k (.t2Decode j) ≤ accBound d k (afterDecode j) := by
  rw [accBound_afterDecode d k hk j, accBound]
  split_ifs <;> omega

/-- The invariants at another position, where no bound gets narrower. -/
theorem DecoderInv.move {c : Config} {t t' : TPhase} {d : Decoder} (h : DecoderInv c t d)
    (hle : ∀ D k, accBound D k t ≤ accBound D k t') : DecoderInv c t' d :=
  ⟨h.accWidth, h.rawWidth, fun ch => (h.ordinary ch).trans (hle _ _), fun hm => (h.vfo hm).trans (hle _ _), h.raw⟩

/-! ### The decoder's operations -/

theorem DecoderInv.afterReset {c : Config} (hc : ConfigLegal c) (d : Decoder) (r : Reading) :
    DecoderInv c .wait (d.afterReset c r) where
  accWidth ch := by simpa [Decoder.afterReset] using fits_zero c.accWidth
  rawWidth := fits_zero c.accWidth
  ordinary ch := by
    have := divisor_pos hc.encDiv
    simpa [Decoder.afterReset, accBound]
  vfo _ := by
    have := divisor_pos hc.vfoDiv
    simpa [Decoder.afterReset, accBound]
  raw _ := rfl

/-- An edge counted in `EDGE` mode (40_quadrature.md R131). -/
theorem DecoderInv.countEdge {c : Config} {t : TPhase} {d : Decoder} (h : DecoderInv c t d) (hm : c.vfoMode = .edge)
    (a b : Bool) : DecoderInv c t (d.countEdge c a b) := by
  unfold Decoder.countEdge
  split
  · exact ⟨h.accWidth, wrapAcc_fits c _, h.ordinary, h.vfo, fun hp => by simp [hm] at hp⟩
  · exact h

/-- The phase services of T1 add at most 2 to each polled channel (40_quadrature.md R137). -/
theorem DecoderInv.foldAll {c : Config} {d : Decoder} (hc : ConfigLegal c) (h : DecoderInv c .t1Phase d)
    (smp : Vector Phase numChan) : DecoderInv c (.t2Decode 0) (d.foldAll c smp (polledChans c)) := by
  have hbound : ∀ {k : Chan} {D : Nat}, k ∈ polledChans c → |d.acc[k]| ≤ (D : Int) - 1 →
      |(d.foldAll c smp (polledChans c)).acc[k]| ≤ (D : Int) + 1 := by
    intro k D hk hD
    obtain ⟨idx, hidx⟩ := d.foldAll_acc_of_mem c smp (polledChans_nodup c) hk
    have := abs_wrapAcc_add_contribution_le hc d.acc[k] idx
    rw [hidx]
    omega
  refine ⟨fun ch => ?_, ?_, fun ch => ?_, fun hm => ?_, fun hm => ?_⟩
  · by_cases hch : ch ∈ polledChans c
    · obtain ⟨idx, hidx⟩ := d.foldAll_acc_of_mem c smp (polledChans_nodup c) hch
      exact hidx ▸ wrapAcc_fits c _
    · exact d.foldAll_acc_of_notMem c smp hch ▸ h.accWidth ch
  · exact d.foldAll_vfoRaw c smp _ ▸ h.rawWidth
  · exact hbound (ordinary_mem_polledChans c ch) (h.ordinary ch)
  · exact hbound (chanV_mem_polledChans hm) (h.vfo hm)
  · exact (d.foldAll_vfoRaw c smp _).trans (h.raw hm)

/-- The captured edges moved into channel V (40_quadrature.md R129, R130). -/
theorem DecoderInv.gatherVfo {s : State} {t : TPhase} (h : DecoderInv s.cfg t s.dec) :
    DecoderInv s.cfg t s.gatherVfo.dec := by
  cases hm : s.cfg.vfoMode with
  | polled => rwa [State.gatherVfo_polled hm]
  | edge =>
    have hpolled : s.cfg.vfoMode ≠ .polled := by simp [hm]
    rw [State.gatherVfo_dec_edge hm]
    refine ⟨fun ch => ?_, fits_zero _, fun ch => ?_, fun hp => absurd hp hpolled, fun _ => rfl⟩
    · by_cases hch : ch = chanV
      · subst hch
        exact (s.dec.setAcc_acc_self chanV _).symm ▸ wrapAcc_fits _ _
      · exact (s.dec.setAcc_acc_other _ hch).symm ▸ h.accWidth ch
    · exact (s.dec.setAcc_acc_other _ (castSucc_ne_chanV ch)).symm ▸ h.ordinary ch

/-- A consumption keeps the width of every accumulator (10_state.md R34, 40_quadrature.md R123). -/
theorem DecoderInv.consume_accWidth {c : Config} {t : TPhase} {d : Decoder} (h : DecoderInv c t d) {lo hi : Int}
    (hlo : lo ≤ 0) (hhi : 0 ≤ hi) (D : Nat) (ch k : Chan) :
    Fits c.accWidth (d.setAcc ch (consumed D lo hi d.acc[ch]).2).acc[k] := by
  by_cases hk : k = ch
  · subst hk
    rw [Decoder.setAcc_acc_self]
    exact consumed_fits hlo hhi (h.accWidth k)
  · rw [Decoder.setAcc_acc_other _ _ hk]
    exact h.accWidth k

/-- The VFO's consumption at `T2_DECODE(0)` (40_quadrature.md R129, R137). -/
theorem DecoderInv.consumeVfo {c : Config} {d : Decoder} (hc : ConfigLegal c) (h : DecoderInv c (.t2Decode 0) d) :
    DecoderInv c (afterDecode 0) (d.setAcc chanV (consumed c.vfoDiv (-128) 127 d.acc[chanV]).2) := by
  refine ⟨h.consume_accWidth (by decide) (by decide) c.vfoDiv chanV, h.rawWidth, fun ch => ?_, fun hm => ?_, h.raw⟩
  · rw [Decoder.setAcc_acc_other _ _ (castSucc_ne_chanV ch)]
    exact (h.ordinary ch).trans (accBound_le_afterDecode (by omega) (Nat.succ_ne_zero ch.val))
  · rw [Decoder.setAcc_acc_self]
    exact (abs_consumed_le (divisor_pos hc.vfoDiv) (by decide) (by decide) (h.vfo hm)).trans (accBound_ge _ _ _)

/-- An ordinary channel's consumption at its own position (40_quadrature.md R127, R137). -/
theorem decoderInv_consumeEnc {c : Config} {d : Decoder} {ch : Fin 10} (hc : ConfigLegal c)
    (h : DecoderInv c (.t2Decode ch.succ) d) :
    DecoderInv c (afterDecode ch.succ)
      (d.setAcc (ordinary ch) (consumed c.encDiv (-8) 7 d.acc[ordinary ch]).2) := by
  refine ⟨h.consume_accWidth (by decide) (by decide) c.encDiv (ordinary ch), h.rawWidth, fun k => ?_, fun hm => ?_, h.raw⟩
  · by_cases hk : k = ch
    · subst hk
      have hwide : |d.acc[ordinary k]| ≤ (c.encDiv : Int) + 1 := (h.ordinary k).trans_eq (if_pos le_rfl)
      rw [show k.castSucc = ordinary k from rfl, Decoder.setAcc_acc_self]
      exact (abs_consumed_le (divisor_pos hc.encDiv) (by decide) (by decide) hwide).trans (accBound_ge _ _ _)
    · have hne : k.castSucc ≠ ordinary ch := fun e => hk (Fin.castSucc_injective 10 e)
      rw [Decoder.setAcc_acc_other _ _ hne]
      refine (h.ordinary k).trans (accBound_le_afterDecode (by omega) fun e => hk (Fin.ext ?_))
      simpa using e
  · have hne : chanV ≠ ordinary ch := (castSucc_ne_chanV ch).symm
    rw [Decoder.setAcc_acc_other _ _ hne]
    exact (h.vfo hm).trans (accBound_le_afterDecode (by omega) (Nat.succ_ne_zero ch.val).symm)

/-! ### Every move -/

/-- Each of the tick agent's sub-steps brings the decoder to the bounds of the next position. -/
theorem TickMove.decoderInv {s t : State} (h : TickMove s t) (hc : ConfigLegal s.cfg)
    (hd : DecoderInv s.cfg s.tphase s.dec) : DecoderInv s.cfg t.tphase t.dec := by
  cases h with
  | timer pos => exact (pos ▸ hd).move fun _ _ => le_rfl
  | sample pos => exact (pos ▸ hd).move fun _ _ => le_rfl
  | phase pos => exact (pos ▸ hd).foldAll hc s.latch.smp
  | vfo pos =>
    rw [pos] at hd
    simpa using hd.gatherVfo.consumeVfo hc
  | encoder ch pos =>
    rw [pos] at hd
    simpa using decoderInv_consumeEnc hc hd
  | scan pos =>
    rw [pos] at hd
    have hmoved : DecoderInv s.cfg .t4Led s.dec := hd.move fun _ _ => le_rfl
    simpa using hmoved
  | led pos => exact (pos ▸ hd).move fun _ _ => le_rfl

/-- Every step keeps the decoder's invariants at the position it leaves. -/
theorem Move.decoderInv {s t : State} (h : Move s t) (hc : ConfigLegal s.cfg) (hd : DecoderInv s.cfg s.tphase s.dec) :
    DecoderInv s.cfg t.tphase t.dec := by
  cases h with
  | tick _ sub => exact sub.decoderInv hc hd
  | edgeCounted a b _ _ mode => exact hd.countEdge mode a b
  | powerOn => exact DecoderInv.afterReset hc _ _
  | select | ledWrite | readIdent | readEvent | readOther | edgeIgnored => exact hd

end Sys2Proof.Machine
end

