-- ==== Sys2Proof/Proofs/State/Invariant.lean ====
section
/-! SUPPORT. The rest of the invariants of 10_state.md R52: the row latch under each move, and the parts of the state after
reset. -/

namespace Sys2Proof.Machine

/-- The row latch holds `ROWS` bits (10_state.md R48). -/
theorem Move.rowsmp_lt {s t : State} (h : Move s t) (hrow : s.latch.rowsmp.toNat < 2 ^ s.cfg.rows) :
    t.latch.rowsmp.toNat < 2 ^ s.cfg.rows := by
  obtain hkept | ⟨v, hlatched⟩ := h.rowsmp_cases
  · rwa [hkept]
  · rw [hlatched]
    exact rowBits_toNat_lt s.cfg.rows v

/-! ### The state after reset -/

theorem divisor_toNat_cases (d : Divisor) : d.toNat = 1 ∨ d.toNat = 2 ∨ d.toNat = 4 := by
  cases d <;> decide

/-- The default configuration is legal, whatever values the factory divisors have (00_scope.md R8; log 5). -/
theorem defaultConfig_legal : ConfigLegal defaultConfig where
  encDiv := divisor_toNat_cases Config.factoryEncDiv
  vfoDiv := divisor_toNat_cases Config.factoryVfoDiv
  geometry := rfl
  rows := by decide
  quadTable := by decide
  encIdMap := by decide
  debounce := by decide
  longpress := by decide

/-- `State.reset` holds what RESET leaves in the decoder of a block at rest. -/
theorem reset_decoderInv : DecoderInv defaultConfig .wait State.reset.dec :=
  DecoderInv.afterReset defaultConfig_legal State.reset.dec { phase := Vector.replicate numChan 0, rows := 0 }

end Sys2Proof.Machine
end

