-- ==== Sys2Proof/Proofs/State/Settled.lean ====
section
/-! PROOFS. The statements of 10_state.md's family, settled. -/

namespace Sys2Proof.Machine

/-- Settles O53: the step is one of the moves, each of which keeps each part, and the configuration is fixed. -/
theorem everyStepKeepsTheInvariants : Obligations.EveryStepKeepsTheInvariants := by
  intro s t hs h
  have hmove : Move s t := step_move h
  have hcfg : t.cfg = s.cfg := configurationIsFixedFromReset s t h
  exact
    { config := hcfg ▸ hs.config
      scanner := hcfg ▸ hmove.scannerInv hs.config hs.scanner
      queue := hmove.queueInv hs.queue
      decoder := hcfg ▸ hmove.decoderInv hs.config hs.decoder
      rowsmp := hcfg ▸ hmove.rowsmp_lt hs.rowsmp }

/-- Settles O49: only the tick agent's move sets the position, and to the next one. -/
theorem onlyTheTickAgentMovesTphase : Obligations.OnlyTheTickAgentMovesTphase := by
  intro s t h hNoPowerOn
  cases step_move h with
  | tick turn sub => exact .inr ⟨sub.tphase, turn⟩
  | powerOn acts act => exact absurd act (hNoPowerOn acts)
  | select _ _ _ act | ledWrite _ _ _ _ act | readIdent _ _ _ act | readEvent _ _ act | readOther _ _ _ act
  | edgeCounted _ _ _ act | edgeIgnored _ _ _ act => exact .inl ⟨rfl, not_tickTurn_of_inbox act nofun⟩

/-- Settles O50: the register interface by its writers, and the LED port by the tick agent's moves. -/
theorem registersChangeOnlyByTheirWriters : Obligations.RegistersChangeOnlyByTheirWriters := by
  intro s t h hNoPowerOn
  have hmove := step_move h
  refine ⟨fun hne => ?_, fun hne => ?_, fun hne => ?_⟩
  · obtain hb | ⟨b0, bs, acts, act, hb⟩ | ⟨lo, hi, bs, acts, act, hb⟩ | ⟨acts, act⟩ := hmove.bus_cases
    · exact absurd (congrArg Bus.regsel hb) hne
    · exact ⟨b0, bs, acts, act, congrArg Bus.regsel hb⟩
    · exact ⟨_, lo :: hi :: bs, acts, act, congrArg Bus.regsel hb⟩
    · exact absurd act (hNoPowerOn acts)
  · obtain hb | ⟨_, _, _, _, hb⟩ | ⟨lo, hi, bs, acts, act, hb⟩ | ⟨acts, act⟩ := hmove.bus_cases
    · exact absurd (congrArg Bus.ledHost hb) hne
    · exact absurd (congrArg Bus.ledHost hb) hne
    · exact ⟨lo, hi, bs, acts, act, congrArg Bus.ledHost hb⟩
    · exact absurd act (hNoPowerOn acts)
  · cases hmove with
    | tick turn sub => exact ⟨turn, sub.ledOut hne⟩
    | powerOn acts act => exact absurd act (hNoPowerOn acts)
    | select | ledWrite | readIdent | readEvent | readOther | edgeCounted | edgeIgnored => exact absurd rfl hne

/-- Settles O51: the ready line by the writers of the queue. An enqueue raises it or leaves the queue as it is, a read only
lowers it. -/
theorem readyLineChangesOnlyByItsRules : Obligations.ReadyLineChangesOnlyByItsRules :=
  fun _ _ h => ⟨(step_move h).ready_falls, (step_move h).ready_rises⟩

/-- Settles O54: the parts that RESET writes have the invariants under every legal configuration, and the default one is
legal. -/
theorem invariantsHoldAtReset : Obligations.InvariantsHoldAtReset where
  config := defaultConfig_legal
  scanner := resetScanner_inv defaultConfig_legal
  queue := resetQueue_inv
  decoder := reset_decoderInv
  rowsmp := Nat.two_pow_pos _

/-- Settles O57: the values of the table, read off channel by channel and slot by slot. -/
theorem resetStateHoldsTheResetValues : Obligations.ResetStateHoldsTheResetValues :=
  ⟨fun ch => Vector.getElem_replicate ch.isLt, rfl, rfl, fun i => Vector.getElem_replicate i.isLt,
    rfl, rfl, rfl, rfl, rfl⟩

end Sys2Proof.Machine
end

