-- ==== Sys2Proof/Proofs/Memory/Transactions.lean ====
section
/-! SUPPORT. What a transaction decodes to, one equation for each bus operation and for every register map: a write by its
length and its select byte (44_bus_protocol.md R221), a read by the register that is selected (R228). -/

namespace Sys2Proof.Machine

/-! ### Writes -/

/-- A write of the select byte alone (20_memory.md R74). -/
@[simp] theorem decode_write_one (m : RegMap) (b0 : Byte) : decode m (.write [b0]) = .ok (.busWrSel b0) := rfl

/-- A write of the select byte and one value byte (20_memory.md R74). -/
@[simp] theorem decode_write_two (m : RegMap) (b0 b1 : Byte) :
    decode m (.write [b0, b1]) = .ok (.busWrShort b0 b1) := rfl

/-- A whole value written to the LED register, low byte first (20_memory.md R72). -/
@[simp] theorem decode_write_led (m : RegMap) (lo hi : Byte) (rest : List Byte) :
    decode m (.write (m.led :: lo :: hi :: rest)) = .ok (.busWrLed lo hi rest) := if_pos rfl

/-- A whole value written to any other register (20_memory.md R75). -/
theorem decode_write_other {m : RegMap} {b0 : Byte} (hled : b0 ≠ m.led) (lo hi : Byte) (rest : List Byte) :
    decode m (.write (b0 :: lo :: hi :: rest)) = .ok (.busWrIgnored b0 lo hi rest) := if_neg hled

/-! ### Reads

A register answers when no earlier case of R228 has its select value. -/

section
variable {m : RegMap} {n : Nat}

theorem decode_read_id (hn : n ≠ 0) : decode m (.read m.id n) = .ok (.busRdId n) := by
  simp [decode, decodeRead, hn]

theorem decode_read_hw (hn : n ≠ 0) (hid : m.hw ≠ m.id) : decode m (.read m.hw n) = .ok (.busRdHw n) := by
  simp [decode, decodeRead, hn, hid]

theorem decode_read_led (hn : n ≠ 0) (hid : m.led ≠ m.id) (hhw : m.led ≠ m.hw) :
    decode m (.read m.led n) = .ok (.busRdLed n) := by
  simp [decode, decodeRead, hn, hid, hhw]

theorem decode_read_event (hn : n ≠ 0) (hid : m.event ≠ m.id) (hhw : m.event ≠ m.hw) (hled : m.event ≠ m.led) :
    decode m (.read m.event n) = .ok (.busRdEvent n) := by
  simp [decode, decodeRead, hn, hid, hhw, hled]

theorem decode_read_undef {sel : Byte} (hn : n ≠ 0) (hid : sel ≠ m.id) (hhw : sel ≠ m.hw) (hled : sel ≠ m.led)
    (hevent : sel ≠ m.event) : decode m (.read sel n) = .ok (.busRdUndef sel n) := by
  simp [decode, decodeRead, hn, hid, hhw, hled, hevent]

end

end Sys2Proof.Machine
end

