-- ==== Sys2Proof/Proofs/Memory/Settled.lean ====
section
/-! PROOFS. The statement of 20_memory.md's family, settled. -/

namespace Sys2Proof.Machine

/-- Settles O4: each transaction by the equation of its operation. What is left to check is that the default select values
differ from each other and from 0x7E (20_memory.md R84). -/
theorem busVectorsDecodeToTheirOperations : Obligations.BusVectorsDecodeToTheirOperations := by
  refine ⟨?wrSel, ?wrShort, ?wrLed, ?wrIgnored, ?rdId, ?rdHw, ?rdLed, ?rdEvent, ?rdUndef⟩
  case wrSel => exact decode_write_one _ _
  case wrShort => exact decode_write_two _ _ _
  case wrLed => exact decode_write_led defaultRegMap _ _ _
  case wrIgnored => exact decode_write_other (by decide) _ _ _
  case rdId => exact decode_read_id (m := defaultRegMap) (by decide)
  case rdHw => exact decode_read_hw (m := defaultRegMap) (by decide) (by decide)
  case rdLed => exact decode_read_led (m := defaultRegMap) (by decide) (by decide) (by decide)
  case rdEvent => exact decode_read_event (m := defaultRegMap) (by decide) (by decide) (by decide) (by decide)
  case rdUndef => exact decode_read_undef (by decide) (by decide) (by decide) (by decide) (by decide)

end Sys2Proof.Machine
end

