-- ==== Sys2Proof/Proofs/Encoding/RoundTrip.lean ====
section
/-! SUPPORT. The decoder against the encoder (30_encoding.md R112): which reads are well formed, a read as one operation chosen
by the selected register, and the transaction that a decoded operation stands for. -/

namespace Sys2Proof.Machine

/-! ### Well-formed reads

A read asks for a byte, and no register before its own in the order of 44_bus_protocol.md R228 has its select value. -/

section
variable {c : Config} {n : Nat}

theorem wellFormed_busWrIgnored {b0 lo hi : Byte} {rest : List Byte} :
    (Instr.busWrIgnored b0 lo hi rest).wellFormed c = true ↔ b0 ≠ c.regMap.led := by
  simp [Instr.wellFormed]

theorem wellFormed_busRdId : (Instr.busRdId n).wellFormed c = true ↔ n ≠ 0 := by
  simp [Instr.wellFormed, Nat.one_le_iff_ne_zero]

theorem wellFormed_busRdHw : (Instr.busRdHw n).wellFormed c = true ↔ n ≠ 0 ∧ c.regMap.hw ≠ c.regMap.id := by
  simp [Instr.wellFormed, Nat.one_le_iff_ne_zero]

theorem wellFormed_busRdLed :
    (Instr.busRdLed n).wellFormed c = true ↔ n ≠ 0 ∧ c.regMap.led ≠ c.regMap.id ∧ c.regMap.led ≠ c.regMap.hw := by
  simp [Instr.wellFormed, Nat.one_le_iff_ne_zero, and_assoc]

theorem wellFormed_busRdEvent :
    (Instr.busRdEvent n).wellFormed c = true ↔
      n ≠ 0 ∧ c.regMap.event ≠ c.regMap.id ∧ c.regMap.event ≠ c.regMap.hw ∧ c.regMap.event ≠ c.regMap.led := by
  simp [Instr.wellFormed, Nat.one_le_iff_ne_zero, and_assoc]

theorem wellFormed_busRdUndef {sel : Byte} :
    (Instr.busRdUndef sel n).wellFormed c = true ↔
      n ≠ 0 ∧ sel ≠ c.regMap.id ∧ sel ≠ c.regMap.hw ∧ sel ≠ c.regMap.led ∧ sel ≠ c.regMap.event := by
  simp [Instr.wellFormed, Nat.one_le_iff_ne_zero, and_assoc]

end

/-! ### The operation of a read -/

/-- The read operation that a select value chooses, in the order of 44_bus_protocol.md R228. -/
def readOperation (m : RegMap) (sel : Byte) (n : Nat) : Instr :=
  if sel = m.id then .busRdId n
  else if sel = m.hw then .busRdHw n
  else if sel = m.led then .busRdLed n
  else if sel = m.event then .busRdEvent n
  else .busRdUndef sel n

/-- A read of no byte is turned away (44_bus_protocol.md R232). -/
@[simp] theorem decode_read_zero (m : RegMap) (sel : Byte) : decode m (.read sel 0) = .error .emptyRead := rfl

/-- A read of a byte or more is the operation that its select value chooses (44_bus_protocol.md R228). -/
theorem decode_read {m : RegMap} {n : Nat} (sel : Byte) (hn : n ≠ 0) :
    decode m (.read sel n) = .ok (readOperation m sel n) := by
  simp only [decode, decodeRead, readOperation, if_neg hn]
  split_ifs <;> rfl

/-- The chosen register's select value is the one that was in force (30_encoding.md R110). -/
theorem encode_readOperation (m : RegMap) (sel : Byte) (n : Nat) :
    encode m (readOperation m sel n) = some (.read sel n) := by
  unfold readOperation
  split_ifs with hid hhw hled hevent
  · rw [hid]; rfl
  · rw [hhw]; rfl
  · rw [hled]; rfl
  · rw [hevent]; rfl
  · rfl

/-! ### The encoding of what was decoded -/

/-- A decoded write keeps every byte, by the length and the select byte of 44_bus_protocol.md R221. -/
theorem encode_of_decode_write {m : RegMap} {b : List Byte} {i : Instr} (h : decode m (.write b) = .ok i) :
    encode m i = some (.write b) := by
  match b with
  | [] => cases h
  | [b0] => cases h; rfl
  | [b0, b1] => cases h; rfl
  | b0 :: lo :: hi :: rest =>
    by_cases hled : b0 = m.led
    · subst hled
      rw [decode_write_led] at h
      cases h
      rfl
    · rw [decode_write_other hled] at h
      cases h
      rfl

/-- A decoded read keeps its select value and its length (30_encoding.md R109). -/
theorem encode_of_decode_read {m : RegMap} {sel : Byte} {n : Nat} {i : Instr} (h : decode m (.read sel n) = .ok i) :
    encode m i = some (.read sel n) := by
  by_cases hn : n = 0
  · subst hn
    cases h
  · rw [decode_read sel hn] at h
    cases h
    exact encode_readOperation m sel n

end Sys2Proof.Machine
end

