-- ==== Sys2Proof/Proofs/Encoding/Reading.lean ====
section
/-! SUPPORT. The step in which the host reads: the operation of the selected register answers, and leaves the register
interface (44_bus_protocol.md R228, R230). -/

namespace Sys2Proof.Machine

/-- A transaction that is no operation is refused (44_bus_protocol.md R232). -/
theorem step_of_decode_error {s : State} {f : Frame} {e : DecodeError} (hf : fetch s = fetchFrame s f)
    (h : decode s.cfg.regMap f = .error e) : step s = .refused (refusalOf e) := by
  simp [step, runFetched, hf, fetchFrame, h]

theorem busRead_of_ne_zero {n : Nat} (hn : n ≠ 0) (w : Word) (q : Queue) (s : State) :
    busRead n w q s = .next ((s.setQueue q).respond w n) := if_neg hn

/-- What a read operation can write: the queue, and the response of a word (44_bus_protocol.md R228). -/
theorem exec_readOperation (m : RegMap) (sel : Byte) {n : Nat} (hn : n ≠ 0) (s : State) :
    ∃ w q, exec (readOperation m sel n) s = .next ((s.setQueue q).respond w n) := by
  unfold readOperation
  split_ifs
  · exact ⟨_, _, busRead_of_ne_zero hn (idWord s.cfg) s.queue.clearReady s⟩
  · exact ⟨_, _, busRead_of_ne_zero hn (hwWord s.cfg) s.queue.clearReady s⟩
  · exact ⟨_, _, busRead_of_ne_zero hn (ledReadWord s.cfg s.bus.ledHost s.scan.bandShift s.scan.encShift) s.queue s⟩
  · exact ⟨_, _, busRead_of_ne_zero hn s.queue.pop.1 s.queue.pop.2 s⟩
  · exact ⟨_, _, busRead_of_ne_zero hn (Config.freeWord s.world.draws) s.queue s⟩

/-- The step of a read of a byte or more, with the act used up (30_encoding.md R110, R112). -/
theorem step_of_read {s : State} {n : Nat} {acts : List Act} (act : s.world.inbox = .read n :: acts) (hn : n ≠ 0) :
    step s = exec (readOperation s.cfg.regMap s.bus.regsel n) s.popInbox :=
  step_of_fetch_single ((fetch_read act).trans (fetchFrame_of_decode (decode_read s.bus.regsel hn)))

end Sys2Proof.Machine
end

