-- ==== Sys2Proof/Proofs/Encoding/Rows.lean ====
section
/-! SUPPORT. The row classification by the set of asserted rows (30_encoding.md R95, R96). -/

namespace Sys2Proof.Machine

/-- The asserted rows are listed in ascending order, each once. -/
theorem setRows_sorted (rows : Nat) (v : RowVec) : (setRows rows v).Pairwise (· < ·) :=
  List.pairwise_lt_range.filter _

/-- What a row classification can answer, and the asserted rows of each answer (30_encoding.md R95). -/
theorem rowClass_cases (rows : Nat) (v : RowVec) :
    (setRows rows v = [] ∧ rowClass rows v = .none) ∨
    (∃ r, setRows rows v = [r] ∧ rowClass rows v = .row r) ∨
    ∃ q r, q < r ∧ q ∈ setRows rows v ∧ r ∈ setRows rows v ∧ rowClass rows v = .multi := by
  have hsorted := setRows_sorted rows v
  unfold rowClass
  match hset : setRows rows v with
  | [] => exact .inl ⟨rfl, rfl⟩
  | [r] => exact .inr (.inl ⟨r, rfl, rfl⟩)
  | q :: r :: rest =>
    rw [hset] at hsorted
    exact .inr (.inr ⟨q, r, List.rel_of_pairwise_cons hsorted List.mem_cons_self, by simp, by simp, rfl⟩)

theorem rowClass_eq_none_iff (rows : Nat) (v : RowVec) : rowClass rows v = .none ↔ ∀ r, r ∉ setRows rows v := by
  obtain ⟨hset, hclass⟩ | ⟨r, hset, hclass⟩ | ⟨q, r, -, -, hr, hclass⟩ := rowClass_cases rows v
  · simp [hset, hclass]
  · simp [hset, hclass]
  · simpa [hclass] using ⟨r, (mem_setRows rows v r).mp hr⟩

theorem rowClass_eq_row_iff (rows : Nat) (v : RowVec) (r : Nat) :
    rowClass rows v = .row r ↔ r ∈ setRows rows v ∧ ∀ q ∈ setRows rows v, q = r := by
  obtain ⟨hset, hclass⟩ | ⟨a, hset, hclass⟩ | ⟨a, b, hab, ha, hb, hclass⟩ := rowClass_cases rows v
  · simp [hset, hclass]
  · simp [hset, hclass, eq_comm]
  · rw [hclass]
    refine ⟨nofun, fun ⟨_, honly⟩ => absurd hab ?_⟩
    rw [honly a ha, honly b hb]
    exact lt_irrefl r

theorem rowClass_eq_multi_iff (rows : Nat) (v : RowVec) :
    rowClass rows v = .multi ↔ ∃ q r, q < r ∧ q ∈ setRows rows v ∧ r ∈ setRows rows v := by
  obtain ⟨hset, hclass⟩ | ⟨a, hset, hclass⟩ | ⟨a, b, hab, ha, hb, hclass⟩ := rowClass_cases rows v
  · simp [hset, hclass]
  · rw [hset, hclass]
    refine ⟨nofun, fun ⟨q, r, hqr, hq, hr⟩ => absurd hqr ?_⟩
    rw [List.mem_singleton.mp hq, List.mem_singleton.mp hr]
    exact lt_irrefl a
  · exact ⟨fun _ => ⟨a, b, hab, ha, hb⟩, fun _ => hclass⟩

/-- One asserted row has the scan code of its place (30_encoding.md R96). -/
theorem scanCodeOf_row {c : Config} {v : RowVec} {r : Nat} (h : rowClass c.rows v = .row r) (col : Nat) :
    scanCodeOf c col v = col * c.rows + r := by
  simp [scanCodeOf, scanCode, h]

/-- No row and several rows have no scan code (30_encoding.md R96). -/
theorem scanCodeOf_not_row {c : Config} {v : RowVec} (h : ∀ r, rowClass c.rows v ≠ .row r) (col : Nat) :
    scanCodeOf c col v = 0xFF := by
  unfold scanCodeOf
  split
  · rfl
  · next r hr => exact absurd hr (h r)
  · rfl

end Sys2Proof.Machine
end

