-- ==== Sys2Proof/Proofs/Encoding/Samples.lean ====
section
/-! SUPPORT. Phase samples and readings: the default quadrature table by the kind of transition (30_encoding.md R93,
40_quadrature.md R122), and what is latched of a reading that was supplied (45_tick_scheduler.md R252). -/

namespace Sys2Proof.Machine

/-! ### The default quadrature table -/

/-- No change adds nothing (40_quadrature.md R122). -/
theorem defaultQuadTable_same : ∀ p : Phase, defaultQuadTable[(p ++ p).toNat] = 0 := by decide

/-- Both lines changed: two steps, positive between 00 and 11 and negative between 01 and 10 (40_quadrature.md R122). -/
theorem defaultQuadTable_skip : ∀ new old : Phase, new ^^^ old = 0b11 →
    defaultQuadTable[(new ++ old).toNat] = if new = 0b00 ∨ new = 0b11 then 2 else -2 := by decide

/-- One line changed: one step (40_quadrature.md R122). -/
theorem defaultQuadTable_single : ∀ new old : Phase, new ^^^ old = 0b01 ∨ new ^^^ old = 0b10 →
    defaultQuadTable[(new ++ old).toNat] = 1 ∨ defaultQuadTable[(new ++ old).toNat] = -1 := by decide

/-- One line changed: the way back adds the opposite (40_quadrature.md R122). -/
theorem defaultQuadTable_reverse : ∀ new old : Phase, new ^^^ old = 0b01 ∨ new ^^^ old = 0b10 →
    defaultQuadTable[(old ++ new).toNat] = -defaultQuadTable[(new ++ old).toNat] := by decide

/-- The positive sequence changes one line at a time and adds 1 (40_quadrature.md R122). -/
theorem defaultQuadTable_positive : ∀ new old : Phase,
    (old, new) ∈ [((0b00, 0b10) : Phase × Phase), (0b10, 0b11), (0b11, 0b01), (0b01, 0b00)] →
      (new ^^^ old = 0b01 ∨ new ^^^ old = 0b10) ∧ defaultQuadTable[(new ++ old).toNat] = 1 := by decide

/-! ### Latching a supplied reading -/

/-- A supplied reading is used up, and the draw index moves (log 2, log 3). -/
theorem World.afterReading_supplied {w : World} {r : Reading} {rs : List Reading} (h : w.readings = r :: rs) :
    w.afterReading = { w with readings := rs, draws := w.draws + 1 } := by
  simp [World.afterReading, h]

/-- `TICK_SAMPLE` on a supplied reading (45_tick_scheduler.md R252). -/
theorem exec_tickSample_supplied {s : State} {r : Reading} {rs : List Reading} (h : s.world.readings = r :: rs) :
    exec .tickSample s = .next { s with
      latch := s.latch.sample s.cfg r
      tphase := .t1Phase
      world := { s.world with readings := rs, draws := s.world.draws + 1 } } := by
  rw [exec_tickSample, World.reading_supplied _ h, World.afterReading_supplied h]

end Sys2Proof.Machine
end

