-- ==== Sys2Proof/Proofs/Encoding/Settled.lean ====
section
/-! PROOFS. The statements of 30_encoding.md's family, settled. -/

namespace Sys2Proof.Machine

/-- Settles O1: each of the nine transactions decodes by its own equation, whose conditions are what makes the operation well
formed; an internal operation has no encoding. -/
theorem decodeOfEncodeGivesTheOperation : Obligations.DecodeOfEncodeGivesTheOperation := by
  intro c i f hwf henc
  cases i with
  | busWrSel b0 =>
    cases henc
    exact decode_write_one _ b0
  | busWrShort b0 b1 =>
    cases henc
    exact decode_write_two _ b0 b1
  | busWrLed lo hi rest =>
    cases henc
    exact decode_write_led _ lo hi rest
  | busWrIgnored b0 lo hi rest =>
    cases henc
    exact decode_write_other (wellFormed_busWrIgnored.mp hwf) lo hi rest
  | busRdId n =>
    cases henc
    exact decode_read_id (wellFormed_busRdId.mp hwf)
  | busRdHw n =>
    cases henc
    obtain ⟨hn, hid⟩ := wellFormed_busRdHw.mp hwf
    exact decode_read_hw hn hid
  | busRdLed n =>
    cases henc
    obtain ⟨hn, hid, hhw⟩ := wellFormed_busRdLed.mp hwf
    exact decode_read_led hn hid hhw
  | busRdEvent n =>
    cases henc
    obtain ⟨hn, hid, hhw, hled⟩ := wellFormed_busRdEvent.mp hwf
    exact decode_read_event hn hid hhw hled
  | busRdUndef sel n =>
    cases henc
    obtain ⟨hn, hid, hhw, hled, hevent⟩ := wellFormed_busRdUndef.mp hwf
    exact decode_read_undef hn hid hhw hled hevent
  | tickSample | servicePhase | encService | vfoService | consumeSteps | scanStep | ledProject | vfoEdge | enqueue
  | dequeue | reset => cases henc

/-- Settles O2: a write keeps its bytes, a read its select value and its length. -/
theorem encodeOfDecodeGivesTheTransaction : Obligations.EncodeOfDecodeGivesTheTransaction := by
  intro m f i h
  cases f with
  | write b => exact encode_of_decode_write h
  | read sel n => exact encode_of_decode_read h

/-- Settles O5: the three answers by the members of the ascending list of asserted rows, and the scan code by the answer. -/
theorem rowClassCountsAssertedRows : Obligations.RowClassCountsAssertedRows := by
  intro rows v
  refine ⟨?none, fun r => ?row, ?multi, ?scanCode⟩
  case none => simp [rowClass_eq_none_iff]
  case row => simp [rowClass_eq_row_iff, and_assoc]
  case multi =>
    rw [rowClass_eq_multi_iff]
    refine exists₂_congr fun q r => and_congr_right fun hqr => ?_
    simp only [mem_setRows]
    exact ⟨fun ⟨⟨_, hq⟩, hlt, hr⟩ => ⟨hlt, hq, hr⟩, fun ⟨hlt, hq, hr⟩ => ⟨⟨hqr.trans hlt, hq⟩, hlt, hr⟩⟩
  case scanCode =>
    rintro c col rfl
    exact ⟨fun r hr => scanCodeOf_row hr col, fun h => scanCodeOf_not_row h col⟩

/-- Settles O16: the step runs the chosen read operation, which hands out `n` bytes and writes no register. -/
theorem readTransactionStep : Obligations.ReadTransactionStep := by
  intro s n acts act
  constructor
  · rintro rfl
    exact step_of_decode_error (fetch_read act) (decode_read_zero _ _)
  · intro hn
    have hn0 : n ≠ 0 := Nat.one_le_iff_ne_zero.mp hn
    obtain ⟨w, q, hexec⟩ := exec_readOperation s.cfg.regMap s.bus.regsel hn0 s.popInbox
    refine ⟨_, (step_of_read act hn0).trans hexec, rfl, responseBytes_length _ _ n, ?_⟩
    rw [← State.popInbox_of_inbox act]
    exact hexec

/-- Settles O6: the table by the number of lines that changed. A step of the positive sequence changes one line, so its way
back adds the opposite. -/
theorem defaultQuadTableSignsTransitions : Obligations.DefaultQuadTableSignsTransitions := by
  rintro new old _ rfl
  refine ⟨?same, fun hpos => ?positive, defaultQuadTable_skip new old, fun hone => ?single⟩
  case same =>
    rintro rfl
    exact defaultQuadTable_same new
  case positive =>
    obtain ⟨hone, hstep⟩ := defaultQuadTable_positive new old hpos
    exact ⟨hstep, (defaultQuadTable_reverse new old hone).trans (congrArg Neg.neg hstep)⟩
  case single => exact ⟨defaultQuadTable_single new old hone, defaultQuadTable_reverse new old hone⟩

/-- Settles O41: of the supplied reading, the polled channels' samples and the `ROWS` bits are latched. -/
theorem tickSampleLatchesTheReading : Obligations.TickSampleLatchesTheReading := by
  intro s r rs hs
  exact ⟨_, exec_tickSample_supplied hs, rfl, rfl, pickPolled_ordinary s.cfg r.phase s.latch.smp,
    pickPolled_chanV s.cfg r.phase s.latch.smp, getLsbD_rowBits s.cfg.rows r.rows⟩

end Sys2Proof.Machine
end

