-- ==== Sys2Proof/Proofs/Quadrature/Services.lean ====
section
/-! SUPPORT. What each operation of the quadrature decoder answers, as one record update (40_quadrature.md R121, R123, R127,
R129, R131): an equation for each operation, and for each mode where the modes differ. -/

namespace Sys2Proof.Machine

/-! ### Parts that the services share -/

/-- Emitting an event unless the count is 0 writes the queue alone. -/
theorem State.emitOpt_unless_zero (s : State) (q : Int) (e : Event) :
    s.emitOpt (if q = 0 then none else some e) = s.setQueue (if q = 0 then s.queue else s.queue.push e) := by
  split <;> rfl

/-- The identifier by the toggle (40_quadrature.md R128). -/
theorem encoderId_eq_ite (c : Config) (encShift : Bool) (ch : Fin 10) :
    encoderId c encShift ch = if encShift then c.encIdMap[1][ch] else c.encIdMap[0][ch] := by
  cases encShift <;> rfl

/-! ### The VFO's gathering (40_quadrature.md R129, R134) -/

/-- The gathering writes the decoder alone, in both modes. -/
theorem State.gatherVfo_eq_setDec (s : State) : s.gatherVfo = s.setDec s.gatherVfo.dec := by
  cases hm : s.cfg.vfoMode with
  | edge =>
    rw [State.gatherVfo_dec_edge hm]
    simp only [State.gatherVfo, hm]
  | polled =>
    rw [State.gatherVfo_polled hm]
    rfl

theorem Decoder.moveRaw_acc_chanV (d : Decoder) (c : Config) :
    (d.moveRaw c).acc[chanV] = wrapAcc c (d.acc[chanV] + d.vfoRaw) :=
  d.setAcc_acc_self chanV _

/-- A write of channel V's accumulator after the gathering hides the sum that was gathered there. -/
theorem Decoder.moveRaw_setAcc (d : Decoder) (c : Config) (a : Int) :
    (d.moveRaw c).setAcc chanV a = { d.setAcc chanV a with vfoRaw := 0 } := by
  simp [Decoder.moveRaw, Decoder.setAcc]

/-! ### The operations -/

theorem exec_servicePhase (ch : Chan) (p : Phase) (s : State) :
    exec (.servicePhase ch p) s = .next (s.setDec (s.dec.fold s.cfg ch p)) := rfl

/-- A phase service first, then another operation. -/
theorem runOps_servicePhase_then (ch : Chan) (p : Phase) (i : Instr) (s : State) :
    runOps [.servicePhase ch p, i] s = exec i (s.setDec (s.dec.fold s.cfg ch p)) := by
  rw [runOps_cons_next (exec_servicePhase ch p s), runOps_singleton]

theorem exec_consumeSteps (ch : Chan) (lo hi : Int) (s : State) :
    exec (.consumeSteps ch lo hi) s = .next { s with
      dec := s.dec.setAcc ch (consumed (divisor s.cfg ch) lo hi s.dec.acc[ch]).2
      world := { s.world with retSteps := (consumed (divisor s.cfg ch) lo hi s.dec.acc[ch]).1 } } := rfl

/-- `ENC_SERVICE` writes the channel's accumulator and the queue (40_quadrature.md R127). -/
theorem exec_encService_update {ch : Fin 10} {s : State} {r : Int × Int}
    (hr : r = consumed s.cfg.encDiv (-8) 7 s.dec.acc[ordinary ch]) :
    exec (.encService ch) s = .next { s with
      dec := s.dec.setAcc (ordinary ch) r.2
      queue := if r.1 = 0 then s.queue else s.queue.push
        { kind := kindEncoderStep, data := encStepData (encoderId s.cfg s.scan.encShift ch) r.1 } } := by
  have hcount : (s.consume (ordinary ch) (-8) 7).1 = r.1 := by simp [hr]
  have hleft : (s.consume (ordinary ch) (-8) 7).2 = s.setDec (s.dec.setAcc (ordinary ch) r.2) := by
    simp [State.consume, hr]
  rw [exec_encService, hcount, hleft, State.emitOpt_unless_zero]
  rfl

/-- `VFO_SERVICE` writes the decoder, first by the gathering, and the queue (40_quadrature.md R129). -/
theorem exec_vfoService_update {s : State} {r : Int × Int}
    (hr : r = consumed s.cfg.vfoDiv (-128) 127 s.gatherVfo.dec.acc[chanV]) :
    exec .vfoService s = .next { s with
      dec := s.gatherVfo.dec.setAcc chanV r.2
      queue := if r.1 = 0 then s.queue else s.queue.push { kind := kindVfoStep, data := vfoStepData r.1 } } := by
  have hcount : (s.gatherVfo.consume chanV (-128) 127).1 = r.1 := by simp [hr]
  have hleft : (s.gatherVfo.consume chanV (-128) 127).2 = s.setDec (s.gatherVfo.dec.setAcc chanV r.2) := by
    rw [s.gatherVfo_eq_setDec]
    simp [State.consume, State.setDec, hr]
  rw [exec_vfoService, hcount, hleft, State.emitOpt_unless_zero]
  rfl

theorem exec_vfoEdge_edge {s : State} (h : s.cfg.vfoMode = .edge) (a b : Bool) :
    exec (.vfoEdge a b) s = .next (s.setDec (s.dec.countEdge s.cfg a b)) := by
  change execVfoEdge a b s = _
  simp only [execVfoEdge, h]

theorem exec_vfoEdge_polled {s : State} (h : s.cfg.vfoMode = .polled) (a b : Bool) : exec (.vfoEdge a b) s = .next s := by
  change execVfoEdge a b s = _
  simp only [execVfoEdge, h]

/-- An edge writes `vfoRaw` alone (40_quadrature.md R131). -/
theorem Decoder.countEdge_eq (d : Decoder) (c : Config) (a b : Bool) :
    d.countEdge c a b = { d with
      vfoRaw := if edgeCounts c.vfoEdge a then wrapAcc c (d.vfoRaw + edgeDir c.vfoEdge a b) else d.vfoRaw } := by
  unfold Decoder.countEdge
  split <;> rfl

@[simp] theorem Decoder.countEdge_acc (d : Decoder) (c : Config) (a b : Bool) : (d.countEdge c a b).acc = d.acc := by
  rw [Decoder.countEdge_eq]

end Sys2Proof.Machine
end

