-- ==== Sys2Proof/Proofs/Quadrature/Conservation.lean ====
section
/-! SUPPORT. The arithmetic of the step paths: what a consumption takes and what it leaves (40_quadrature.md R124, R125), and
the two operations that change a sum only modulo 2^ACC_WIDTH (R135). -/

namespace Sys2Proof.Machine

/-! ### Consumption -/

/-- Count times divisor plus what stays is what was there, clamped or not (40_quadrature.md R125). -/
theorem consumed_conserves (d : Nat) (lo hi acc : Int) :
    d * (consumed d lo hi acc).1 + (consumed d lo hi acc).2 = acc := by
  simp only [consumed]
  ring

theorem consumed_count_mem (d : Nat) {lo hi : Int} (acc : Int) (h : lo ≤ hi) :
    lo ≤ (consumed d lo hi acc).1 ∧ (consumed d lo hi acc).1 ≤ hi :=
  clamp_le _ h

/-- Where the quotient fits the range, quotient and remainder are what is taken and left (40_quadrature.md R124). -/
theorem consumed_of_fits {d : Nat} {lo hi acc : Int} (hlo : lo ≤ Int.tdiv acc d) (hhi : Int.tdiv acc d ≤ hi) :
    consumed d lo hi acc = (Int.tdiv acc d, Int.tmod acc d) := by
  simp only [consumed, clamp_of_mem hlo hhi, Int.tmod_def, mul_comm]

theorem abs_tmod_lt (a : Int) {d : Int} (hd : 0 < d) : |Int.tmod a d| < d :=
  abs_lt.mpr ⟨Int.lt_tmod_of_pos a hd, Int.tmod_lt_of_pos a hd⟩

/-- A truncated remainder is 0 or has the sign of the dividend (00_scope.md R10). -/
theorem tmod_eq_zero_or_same_sign (a d : Int) :
    Int.tmod a d = 0 ∨ (0 < Int.tmod a d ∧ 0 < a) ∨ (Int.tmod a d < 0 ∧ a < 0) := by
  have hsign := Int.sign_tmod a d
  split at hsign
  · exact .inl (Int.sign_eq_zero_iff_zero.mp hsign)
  · obtain hneg | hzero | hpos := lt_trichotomy a 0
    · rw [Int.sign_eq_neg_one_of_neg hneg] at hsign
      exact .inr (.inr ⟨Int.neg_of_sign_eq_neg_one hsign, hneg⟩)
    · exact .inl (by rw [hzero, Int.zero_tmod])
    · rw [Int.sign_eq_one_of_pos hpos] at hsign
      exact .inr (.inl ⟨Int.pos_of_sign_eq_one hsign, hpos⟩)

/-- An accumulator that holds a wrapped sum and gives up a count's worth of steps: with them, it is the sum modulo `2^N`. -/
theorem sub_mul_add_mul_modEq_of_eq_wrapN {n : Nat} {a v : Int} (h : a = wrapN n v) (q d : Int) :
    a - q * d + d * q ≡ v [ZMOD 2 ^ n] := by
  rw [mul_comm d q, sub_add_cancel, h]
  exact wrapN_modEq n v

/-! ### One edge -/

/-- An edge moves `vfoRaw` by its direction where it is counted, modulo 2^ACC_WIDTH (40_quadrature.md R131). -/
theorem Decoder.countEdge_vfoRaw_modEq (d : Decoder) (c : Config) (a b : Bool) :
    (d.countEdge c a b).vfoRaw ≡ d.vfoRaw + (if edgeCounts c.vfoEdge a then edgeDir c.vfoEdge a b else 0)
      [ZMOD 2 ^ c.accWidth] := by
  rw [Decoder.countEdge_eq]
  dsimp only
  split
  · exact wrapN_modEq c.accWidth _
  · rw [add_zero]

/-- The direction of an edge, 0 where it is not counted, by the edge rule (40_quadrature.md R132, R133). -/
theorem edgeDir_counted (rule : EdgeRule) (a b : Bool) :
    (if edgeCounts rule a then edgeDir rule a b else 0) =
      if rule = .rising ∧ a = false then 0
      else if (rule = .rising ∧ b = true) ∨ (rule = .both ∧ a = b) then 1 else -1 := by
  cases rule with
  | rising => cases a <;> simp [edgeCounts, edgeDir]
  | both => simp [edgeCounts, edgeDir]

end Sys2Proof.Machine
end

