-- ==== Sys2Proof/Proofs/Quadrature/PhaseSubStep.lean ====
section
/-! SUPPORT. The sub-step at T1 (45_tick_scheduler.md R253): the step as one fold over the polled channels, and what the fold
leaves in each channel. -/

namespace Sys2Proof.Machine

/-! ### One fold -/

theorem Decoder.fold_prev_self (d : Decoder) (c : Config) (ch : Chan) (p : Phase) : (d.fold c ch p).prev[ch] = p :=
  Vector.getElem_set_self _

theorem Decoder.fold_prev_other (d : Decoder) (c : Config) {ch k : Chan} (p : Phase) (h : k ≠ ch) :
    (d.fold c ch p).prev[k] = d.prev[k] :=
  Vector.getElem_set_ne ch.isLt k.isLt fun e => h (Fin.ext e.symm)

/-! ### The fold over channels -/

/-- A channel that is not serviced keeps its sample. -/
theorem Decoder.foldAll_prev_of_notMem (d : Decoder) (c : Config) (smp : Vector Phase numChan) {chs : List Chan} {k : Chan}
    (h : k ∉ chs) : (d.foldAll c smp chs).prev[k] = d.prev[k] := by
  induction chs generalizing d with
  | nil => rfl
  | cons ch chs ih =>
    obtain ⟨hne, hrest⟩ := List.ne_and_not_mem_of_not_mem_cons h
    exact (ih _ hrest).trans (d.fold_prev_other c _ hne)

/-- A channel that is serviced once has its latched sample folded in: the fold's other channels do not touch it. -/
theorem Decoder.foldAll_of_mem (d : Decoder) (c : Config) (smp : Vector Phase numChan) {chs : List Chan} {k : Chan}
    (hnodup : chs.Nodup) (h : k ∈ chs) :
    (d.foldAll c smp chs).prev[k] = smp[k] ∧
      (d.foldAll c smp chs).acc[k] = wrapAcc c (d.acc[k] + contribution c (quadIndex smp[k] d.prev[k])) := by
  induction chs generalizing d with
  | nil => cases h
  | cons ch chs ih =>
    obtain ⟨hnotMem, hnodup'⟩ := List.nodup_cons.mp hnodup
    by_cases hk : k = ch
    · subst hk
      exact ⟨(Decoder.foldAll_prev_of_notMem _ c smp hnotMem).trans (d.fold_prev_self c k _),
        (Decoder.foldAll_acc_of_notMem _ c smp hnotMem).trans (d.fold_acc_self c k _)⟩
    · rw [← d.fold_acc_other c smp[ch] hk, ← d.fold_prev_other c smp[ch] hk]
      exact ih (d.fold c ch smp[ch]) hnodup' (List.mem_of_ne_of_mem hk h)

/-- The channels that T1 services: each ordinary one, and V in `POLLED` mode only (40_quadrature.md R120). -/
theorem mem_polledChans_iff (c : Config) (ch : Chan) : ch ∈ polledChans c ↔ ch ≠ chanV ∨ c.vfoMode = .polled := by
  have hord : ∀ k : Chan, k ∈ ordinaryChans ↔ k ≠ chanV := by decide
  cases hm : c.vfoMode with
  | polled => simp [polledChans, hm, hord, Decidable.em, or_comm]
  | edge => simp [polledChans, hm, hord]

/-! ### The step -/

/-- The tick agent's step at `T1_PHASE` (45_tick_scheduler.md R251, R253). -/
theorem step_t1Phase {s : State} (turn : s.tickTurn) (pos : s.tphase = .t1Phase) :
    step s = .next ((s.popInbox.setDec (s.dec.foldAll s.cfg s.latch.smp (polledChans s.cfg))).setTphase (.t2Decode 0)) := by
  have hops : tickOps s = (polledChans s.cfg).map fun ch => .servicePhase ch s.latch.smp[ch] := by
    simp only [tickOps, pos]
  rw [step_of_fetch (fetch_tickTurn turn), fetchTick, hops, runOps_servicePhases, pos]
  rfl

end Sys2Proof.Machine
end

