-- ==== Sys2Proof/Proofs/Quadrature/Settled.lean ====
section
/-! PROOFS. The statements of 40_quadrature.md's family, settled. -/

namespace Sys2Proof.Machine

/-- Settles O23: the split holds clamped or not; where the quotient fits, it is the truncated division with remainder. -/
theorem consumptionLosesNoStep : Obligations.ConsumptionLosesNoStep := by
  rintro ch lo hi s a d rfl (hd : d = divisor s.cfg ch) hlegal hlo hhi
  subst hd
  obtain ⟨hge, hle⟩ := consumed_count_mem (divisor s.cfg ch) s.dec.acc[ch] (hlo.trans hhi)
  refine ⟨_, _, exec_consumeSteps ch lo hi s, rfl, hge, hle, ?_, fun hlo' hhi' => ?_⟩
  · rw [Decoder.setAcc_acc_self]
    exact (consumed_conserves _ lo hi _).symm
  · have hfits := consumed_of_fits hlo' hhi'
    rw [Decoder.setAcc_acc_self, hfits]
    exact ⟨rfl, rfl, abs_tmod_lt _ (by omega), tmod_eq_zero_or_same_sign _ _⟩

/-- Settles O44: the step is one fold over the polled channels, in which each of them occurs once. -/
theorem phaseSubStepServicesEveryPolledChannel : Obligations.PhaseSubStepServicesEveryPolledChannel := by
  intro s turn pos
  refine ⟨_, step_t1Phase turn pos, rfl, s.dec.foldAll_vfoRaw s.cfg _ _, fun ch =>
    ⟨fun hpolled => ?_, fun hV hedge => ?_⟩⟩
  · exact s.dec.foldAll_of_mem s.cfg _ (polledChans_nodup s.cfg) ((mem_polledChans_iff s.cfg ch).mpr hpolled)
  · have hnotMem : ch ∉ polledChans s.cfg := by simp [mem_polledChans_iff, hV, hedge]
    exact ⟨s.dec.foldAll_prev_of_notMem s.cfg _ hnotMem, s.dec.foldAll_acc_of_notMem s.cfg _ hnotMem⟩

/-- Settles O21: the fold of one sample, which no other part of the state sees. -/
theorem phaseServiceAddsContribution : Obligations.PhaseServiceAddsContribution := exec_servicePhase

/-- Settles O22: the count is the clamped quotient, and what it stands for is taken out of the accumulator. -/
theorem consumptionTakesClampedQuotient : Obligations.ConsumptionTakesClampedQuotient := by
  rintro ch lo hi s a d q rfl rfl rfl
  exact exec_consumeSteps ch lo hi s

/-- Settles O24: the service's consumption with the ordinary channels' divisor and range. -/
theorem encoderServiceEmitsWholeSteps : Obligations.EncoderServiceEmitsWholeSteps := by
  rintro ch s a q id rfl rfl rfl
  rw [← encoderId_eq_ite]
  exact exec_encService_update rfl

/-- Settles O25: the consumption acts on the gathered sum in `EDGE` mode and on the accumulator in `POLLED` mode. -/
theorem vfoServiceEmitsWholeSteps : Obligations.VfoServiceEmitsWholeSteps := by
  rintro s a q ha rfl
  cases hm : s.cfg.vfoMode with
  | edge =>
    have hacc : s.gatherVfo.dec.acc[chanV] = a := by
      rw [ha, if_pos hm, State.gatherVfo_dec_edge hm]
      exact s.dec.moveRaw_acc_chanV s.cfg
    rw [exec_vfoService_update rfl, hacc, State.gatherVfo_dec_edge hm, Decoder.moveRaw_setAcc]
    rfl
  | polled =>
    have hacc : s.gatherVfo.dec.acc[chanV] = a := by
      rw [ha, if_neg (by simp [hm]), State.gatherVfo_polled hm]
      rfl
    rw [exec_vfoService_update rfl, hacc, State.gatherVfo_polled hm]
    rfl

/-- Settles O26: the edge rule decides whether the edge counts and in which direction. -/
theorem vfoEdgeCountsOneEdge : Obligations.VfoEdgeCountsOneEdge := by
  intro a b s hm
  rw [exec_vfoEdge_edge hm, Decoder.countEdge_eq]
  cases s.cfg.vfoEdge with
  | rising => cases a <;> cases b <;> rfl
  | both => cases a <;> cases b <;> rfl

/-- Settles O27: the edge agent has no steps in `POLLED` mode. -/
theorem vfoEdgeHasNoEffectWhenPolled : Obligations.VfoEdgeHasNoEffectWhenPolled :=
  fun a b _ hm => exec_vfoEdge_polled hm a b

/-- Settles O28: an edge adds its direction to `vfoRaw`, and the service moves `vfoRaw` into the accumulator before it takes
the count out; both wrap, which keeps the sum modulo 2^ACC_WIDTH. -/
theorem vfoPathConservesSteps : Obligations.VfoPathConservesSteps := by
  intro s hm
  refine ⟨fun a b => ⟨_, exec_vfoEdge_edge hm a b, ?edge⟩, ?service⟩
  case edge =>
    have hraw := (s.dec.countEdge_vfoRaw_modEq s.cfg a b).add_right s.dec.acc[chanV]
    rw [edgeDir_counted, add_right_comm] at hraw
    simpa using hraw
  case service =>
    obtain ⟨hge, hle⟩ := clamp_le (Int.tdiv (wrapAcc s.cfg (s.dec.acc[10] + s.dec.vfoRaw)) s.cfg.vfoDiv)
      (by decide : (-128 : Int) ≤ 127)
    refine ⟨_, _, vfoServiceEmitsWholeSteps s _ _ (if_pos hm).symm rfl, rfl, hge, hle, ?_⟩
    simp only [Vector.getElem_set_self, if_pos hm, zero_add]
    rw [add_comm s.dec.vfoRaw]
    exact sub_mul_add_mul_modEq_of_eq_wrapN rfl _ _

/-- Settles O29: the phase service leaves the wrapped sum in the accumulator, and the step service takes the count out of it.
In `POLLED` mode the VFO service does so too, without `vfoRaw`. -/
theorem encoderPathConservesSteps : Obligations.EncoderPathConservesSteps := by
  intro s p
  refine ⟨fun ch => ?ordinary, fun hm => ?vfo⟩
  case ordinary =>
    obtain ⟨hge, hle⟩ := clamp_le (Int.tdiv (s.dec.fold s.cfg ch.castSucc p).acc[ch.castSucc] s.cfg.encDiv)
      (by decide : (-8 : Int) ≤ 7)
    refine ⟨_, _, (runOps_servicePhase_then ch.castSucc p _ s).trans
      (encoderServiceEmitsWholeSteps ch _ _ _ _ rfl rfl rfl), rfl, hge, hle, ?_⟩
    simp only [Fin.getElem_fin, Vector.getElem_set_self]
    exact sub_mul_add_mul_modEq_of_eq_wrapN (s.dec.fold_acc_self s.cfg ch.castSucc p) _ _
  case vfo =>
    have hnotEdge : s.cfg.vfoMode ≠ .edge := by simp [hm]
    obtain ⟨hge, hle⟩ := clamp_le (Int.tdiv (s.dec.fold s.cfg chanV p).acc[chanV] s.cfg.vfoDiv)
      (by decide : (-128 : Int) ≤ 127)
    refine ⟨_, _, (runOps_servicePhase_then chanV p _ s).trans
      (vfoServiceEmitsWholeSteps _ _ _ (if_neg hnotEdge).symm rfl), rfl, hge, hle, if_neg hnotEdge, ?_⟩
    simp only [Vector.getElem_set_self]
    exact sub_mul_add_mul_modEq_of_eq_wrapN (s.dec.fold_acc_self s.cfg chanV p) _ _

end Sys2Proof.Machine
end

