-- ==== Sys2Proof/Proofs/Scan/Report.lean ====
section
/-! SUPPORT. What is reported for the held button and what the confirmation of its press does (41_scan_sequencer.md R169 to
R174), as equations. -/

namespace Sys2Proof.Machine

/-! ### The report -/

/-- The report table read below its length (30_encoding.md R98). -/
theorem reportEntry_eq_getElem (c : Config) {i : Nat} (h : i < 64) : reportEntry c i = c.reportTable[i] := by
  simp [reportEntry, h]

/-- `report` drops every kind for a shift button (41_scan_sequencer.md R174). -/
theorem Scanner.report_shift {x : Scanner} {c : Config} (kind : Kind) (h : x.heldScan c = 9 ∨ x.heldScan c = 27) :
    x.report c kind = none :=
  if_pos h

/-- Any other button is reported with its classification, unless that is 0 or 0xFF (41_scan_sequencer.md R173, R174). -/
theorem Scanner.report_ordinary {x : Scanner} {c : Config} (kind : Kind) (h : ¬ (x.heldScan c = 9 ∨ x.heldScan c = 27)) :
    x.report c kind =
      if classify c (x.heldScan c) x.bandShift x.encShift = 0 ∨ classify c (x.heldScan c) x.bandShift x.encShift = 0xFF
      then none
      else some { kind := kind, data := classify c (x.heldScan c) x.bandShift x.encShift } :=
  if_neg h

/-- Whether a report is made, and its code, do not depend on the kind: the three kinds use the same code
(41_scan_sequencer.md R174). -/
theorem Scanner.report_other_kind {x : Scanner} {c : Config} {kind : Kind} {code : Byte}
    (h : x.report c kind = some { kind := kind, data := code }) (kind' : Kind) :
    x.report c kind' = some { kind := kind', data := code } := by
  obtain ⟨hband, henc, -⟩ := Scanner.report_some h
  have hshift := not_or.mpr ⟨hband, henc⟩
  rw [Scanner.report_ordinary _ hshift] at h ⊢
  split at h
  · cases h
  · next hcode =>
    cases h
    rw [if_neg hcode]

/-! ### The confirmation -/

/-- A confirmed press inverts the toggle of a shift button, and is reported otherwise (41_scan_sequencer.md R170). -/
theorem Scanner.confirmPress_eq (x : Scanner) (c : Config) :
    x.confirmPress c =
      ({ x with
          bandShift := if x.heldScan c = 9 then !x.bandShift else x.bandShift
          encShift := if x.heldScan c = 27 then !x.encShift else x.encShift },
        x.report c kindButtonPress) := by
  obtain ⟨hscan, h⟩ | ⟨hscan, h⟩ | ⟨hband, henc, h⟩ := x.confirmPress_cases c
  · rw [h, x.report_shift _ (.inl hscan), if_pos hscan, if_neg (by omega)]
  · rw [h, x.report_shift _ (.inr hscan), if_neg (by omega), if_pos hscan]
  · rw [h, if_neg hband, if_neg henc]

end Sys2Proof.Machine
end

