-- ==== Sys2Proof/Proofs/Scan/Table.lean ====
section
/-! SUPPORT. The transition table of the scan sequencer (41_scan_sequencer.md R175) as a relation, proved to be exactly the
model's step; and what the table says of the event, the column and the shift toggles. -/

namespace Sys2Proof.Machine

/-- The rows of the transition table: `ScanArm c rc x y o` where a reading of class `rc` takes the sequencer from `x` to `y`
and reports `o` (41_scan_sequencer.md R175). A countdown of 0 in a waiting state counts as expired (log 13). -/
inductive ScanArm (c : Config) (rc : RowClass) (x : Scanner) : Scanner → Option Event → Prop where
  /-- R153. -/
  | advance (st : x.state = .idle) (clear : rc = .none) : ScanArm c rc x { x with col := (x.col + 1) % c.cols } none
  /-- R154. -/
  | capture (r : Nat) (st : x.state = .idle) (single : rc = .row r) :
    ScanArm c rc x (({ x with row := r }).enter c .waitPressed) none
  /-- R155. -/
  | several (st : x.state = .idle) (multi : rc = .multi) : ScanArm c rc x (x.enter c .multiPressed) none
  /-- R156, R162, R165, R166, before expiry. -/
  | running (st : x.state.isWaiting = true) (run : 2 ≤ x.dcnt) : ScanArm c rc x x.countDown none
  /-- R157, R170. -/
  | confirm (st : x.state = .waitPressed) (exp : x.dcnt ≤ 1) (same : rc = .row x.row) :
    ScanArm c rc x
      { x with
        dcnt := 0, state := .pressed, lpcnt := c.longpressTicks
        bandShift := if x.heldScan c = 9 then !x.bandShift else x.bandShift
        encShift := if x.heldScan c = 27 then !x.encShift else x.encShift }
      (x.report c kindButtonPress)
  /-- R158. -/
  | pressChanged (st : x.state = .waitPressed) (exp : x.dcnt ≤ 1) (other : rc ≠ .row x.row) :
    ScanArm c rc x (x.enter c .multiPressed) none
  /-- R159, the long-press countdown running. -/
  | holding (st : x.state = .pressed) (same : rc = .row x.row) (run : 2 ≤ x.lpcnt) :
    ScanArm c rc x { x with lpcnt := x.lpcnt - 1 } none
  /-- R159, the long-press countdown reaching 0. -/
  | longPress (st : x.state = .pressed) (same : rc = .row x.row) (last : x.lpcnt = 1) :
    ScanArm c rc x { x with lpcnt := 0 } (x.report c kindButtonLongPress)
  /-- R159, after the long press. -/
  | held (st : x.state = .pressed) (same : rc = .row x.row) (done : x.lpcnt = 0) : ScanArm c rc x x none
  /-- R160. -/
  | rowCleared (st : x.state = .pressed) (clear : rc = .none) : ScanArm c rc x (x.enter c .waitReleased) none
  /-- R161. -/
  | holdChanged (st : x.state = .pressed) (other : rc ≠ .row x.row) (notClear : rc ≠ .none) :
    ScanArm c rc x (x.enter c .multiPressed) (x.report c kindButtonRelease)
  /-- R162. -/
  | release (st : x.state = .waitReleased) (exp : x.dcnt ≤ 1) (clear : rc = .none) :
    ScanArm c rc x { x with dcnt := 0, state := .idle } (x.report c kindButtonRelease)
  /-- R164. -/
  | bounce (st : x.state = .waitReleased) (exp : x.dcnt ≤ 1) (same : rc = .row x.row) :
    ScanArm c rc x { x with dcnt := 0, state := .pressed } none
  /-- R163. -/
  | releaseChanged (st : x.state = .waitReleased) (exp : x.dcnt ≤ 1) (notClear : rc ≠ .none) (other : rc ≠ .row x.row) :
    ScanArm c rc x (x.enter c .multiPressed) none
  /-- R165, R166, on a reading that is not clear. -/
  | multiAgain (st : x.state = .multiPressed ∨ x.state = .waitMultiReleased) (exp : x.dcnt ≤ 1) (notClear : rc ≠ .none) :
    ScanArm c rc x (x.enter c .multiPressed) none
  /-- R165, the first clear reading. -/
  | firstClear (st : x.state = .multiPressed) (exp : x.dcnt ≤ 1) (clear : rc = .none) :
    ScanArm c rc x (x.enter c .waitMultiReleased) none
  /-- R166, the second clear reading. -/
  | secondClear (st : x.state = .waitMultiReleased) (exp : x.dcnt ≤ 1) (clear : rc = .none) :
    ScanArm c rc x { x with dcnt := 0, state := .idle } none

section
variable {c : Config} {rc : RowClass} {x y : Scanner} {o : Option Event}

/-! ### The table is the step -/

theorem Scanner.countDown_running (h : 2 ≤ x.dcnt) : x.countDown.dcnt ≠ 0 := Nat.sub_ne_zero_of_lt h

theorem Scanner.countDown_expired (h : x.dcnt ≤ 1) : x.countDown = { x with dcnt := 0 } := by
  rw [Scanner.countDown, Nat.sub_eq_zero_of_le h]

/-- Each row of the table is a step of the model (41_scan_sequencer.md R151, R175). -/
theorem ScanArm.next_eq (h : ScanArm c rc x y o) : x.next c rc = (y, o) := by
  unfold Scanner.next
  cases h with
  | advance st clear => simp only [st, clear, Scanner.stepIdle]
  | capture r st single => simp only [st, single, Scanner.stepIdle]
  | several st multi => simp only [st, multi, Scanner.stepIdle]
  | running st run =>
    have hrun := Scanner.countDown_running run
    cases hst : x.state with
    | idle | pressed => simp [hst, ScanState.isWaiting] at st
    | waitPressed => simp only [Scanner.stepWaitPressed, if_neg hrun]
    | waitReleased => simp only [Scanner.stepWaitReleased, if_neg hrun]
    | multiPressed => simp only [Scanner.stepMultiPressed, if_neg hrun]
    | waitMultiReleased => simp only [Scanner.stepWaitMultiReleased, if_neg hrun]
  | confirm st exp same =>
    simp only [st, same, Scanner.stepWaitPressed, Scanner.countDown_expired exp, if_true, Scanner.confirmPress_eq]
    rfl
  | pressChanged st exp other =>
    simp only [st, Scanner.stepWaitPressed, Scanner.countDown_expired exp, if_true, if_neg other]
    rfl
  | holding st same run =>
    have hpos : 0 < x.lpcnt := by omega
    have hrun : x.lpcnt - 1 ≠ 0 := by omega
    simp only [st, same, Scanner.stepPressed, if_true, if_pos hpos, if_neg hrun]
  | longPress st same last =>
    simp only [st, same, Scanner.stepPressed, last, if_true, Nat.zero_lt_one, Nat.sub_self]
    rfl
  | held st same done => simp only [st, same, Scanner.stepPressed, done, if_true, Nat.lt_irrefl, if_false]
  | rowCleared st clear => simp [st, clear, Scanner.stepPressed]
  | holdChanged st other notClear => simp only [st, Scanner.stepPressed, if_neg other, if_neg notClear]
  | release st exp clear =>
    simp only [st, clear, Scanner.stepWaitReleased, Scanner.countDown_expired exp, if_true]
    rfl
  | bounce st exp same =>
    simp [st, same, Scanner.stepWaitReleased, Scanner.countDown_expired exp]
  | releaseChanged st exp notClear other =>
    simp only [st, Scanner.stepWaitReleased, Scanner.countDown_expired exp, if_true, if_neg other, if_neg notClear]
    rfl
  | multiAgain st exp notClear =>
    obtain st | st := st
    · simp only [st, Scanner.stepMultiPressed, Scanner.countDown_expired exp, if_true, if_neg notClear]
      rfl
    · simp only [st, Scanner.stepWaitMultiReleased, Scanner.countDown_expired exp, if_true, if_neg notClear]
      rfl
  | firstClear st exp clear =>
    simp only [st, clear, Scanner.stepMultiPressed, Scanner.countDown_expired exp, if_true]
    rfl
  | secondClear st exp clear =>
    simp only [st, clear, Scanner.stepWaitMultiReleased, Scanner.countDown_expired exp, if_true]

/-- The table has a row for every state and every reading (41_scan_sequencer.md R175). -/
theorem ScanArm.total (c : Config) (rc : RowClass) (x : Scanner) : ∃ y o, ScanArm c rc x y o := by
  by_cases hrun : x.state.isWaiting = true ∧ 2 ≤ x.dcnt
  · obtain ⟨st, run⟩ := hrun
    exact ⟨_, _, .running st run⟩
  have hexp : x.state.isWaiting = true → x.dcnt ≤ 1 := fun hw => by
    have := not_and.mp hrun hw
    omega
  cases st : x.state with
  | idle =>
    cases rc with
    | none => exact ⟨_, _, .advance st rfl⟩
    | row r => exact ⟨_, _, .capture r st rfl⟩
    | multi => exact ⟨_, _, .several st rfl⟩
  | waitPressed =>
    have exp := hexp (by rw [st]; rfl)
    by_cases same : rc = .row x.row
    · exact ⟨_, _, .confirm st exp same⟩
    · exact ⟨_, _, .pressChanged st exp same⟩
  | pressed =>
    by_cases same : rc = .row x.row
    · obtain done | last | run : x.lpcnt = 0 ∨ x.lpcnt = 1 ∨ 2 ≤ x.lpcnt := by omega
      · exact ⟨_, _, .held st same done⟩
      · exact ⟨_, _, .longPress st same last⟩
      · exact ⟨_, _, .holding st same run⟩
    · by_cases clear : rc = .none
      · exact ⟨_, _, .rowCleared st clear⟩
      · exact ⟨_, _, .holdChanged st same clear⟩
  | waitReleased =>
    have exp := hexp (by rw [st]; rfl)
    by_cases clear : rc = .none
    · exact ⟨_, _, .release st exp clear⟩
    · by_cases same : rc = .row x.row
      · exact ⟨_, _, .bounce st exp same⟩
      · exact ⟨_, _, .releaseChanged st exp clear same⟩
  | multiPressed =>
    have exp := hexp (by rw [st]; rfl)
    by_cases clear : rc = .none
    · exact ⟨_, _, .firstClear st exp clear⟩
    · exact ⟨_, _, .multiAgain (.inl st) exp clear⟩
  | waitMultiReleased =>
    have exp := hexp (by rw [st]; rfl)
    by_cases clear : rc = .none
    · exact ⟨_, _, .secondClear st exp clear⟩
    · exact ⟨_, _, .multiAgain (.inr st) exp clear⟩

/-- The table is the sequencer's transition relation (41_scan_sequencer.md R175). -/
theorem scanArm_iff : ScanArm c rc x y o ↔ x.next c rc = (y, o) := by
  refine ⟨ScanArm.next_eq, fun h => ?_⟩
  obtain ⟨y', o', harm⟩ := ScanArm.total c rc x
  obtain ⟨rfl, rfl⟩ := Prod.mk.inj (harm.next_eq.symm.trans h)
  exact harm

/-! ### What a step reports, and which parts of the sequencer it moves -/

/-- What a step reports is a button event with the held button's code, or nothing (41_scan_sequencer.md R174). -/
theorem ScanArm.event_eq_some (h : ScanArm c rc x y o) {e : Event} (he : o = some e) :
    ∃ kind : Kind, 3 ≤ kind.toNat ∧ kind.toNat ≤ 5 ∧ x.report c kind = some e := by
  cases h with
  | confirm => exact ⟨kindButtonPress, by decide, by decide, he⟩
  | longPress => exact ⟨kindButtonLongPress, by decide, by decide, he⟩
  | holdChanged | release => exact ⟨kindButtonRelease, by decide, by decide, he⟩
  | advance | capture | several | running | pressChanged | holding | held | rowCleared | bounce | releaseChanged | multiAgain
  | firstClear | secondClear => cases he

/-- The column moves only in `Idle` on a clear reading (41_scan_sequencer.md R168). -/
theorem ScanArm.col_eq (h : ScanArm c rc x y o) (hx : ¬ (x.state = .idle ∧ rc = .none)) : y.col = x.col := by
  cases h with
  | advance st clear => exact absurd ⟨st, clear⟩ hx
  | _ => rfl

/-- The toggles are inverted by the confirmation of a shift button's press, and kept by every other step
(41_scan_sequencer.md R170, R171). -/
theorem ScanArm.toggles (h : ScanArm c rc x y o) :
    ((x.state = .waitPressed ∧ y.state = .pressed) ∧
      y.bandShift = (if x.heldScan c = 9 then !x.bandShift else x.bandShift) ∧
      y.encShift = (if x.heldScan c = 27 then !x.encShift else x.encShift)) ∨
    (¬ (x.state = .waitPressed ∧ y.state = .pressed) ∧ y.bandShift = x.bandShift ∧ y.encShift = x.encShift) := by
  cases h with
  | confirm st => exact .inl ⟨⟨st, rfl⟩, rfl, rfl⟩
  | running => exact .inr ⟨fun ⟨hw, hp⟩ => (by cases hw.symm.trans hp), rfl, rfl⟩
  | pressChanged => exact .inr ⟨fun ⟨_, hp⟩ => (by cases hp), rfl, rfl⟩
  | advance st | capture _ st | several st | holding st | longPress st | held st | rowCleared st | holdChanged st | release st
  | bounce st | releaseChanged st | firstClear st | secondClear st =>
    exact .inr ⟨by simp [st], rfl, rfl⟩
  | multiAgain st => exact .inr ⟨fun ⟨hw, _⟩ => by simp [hw] at st, rfl, rfl⟩

/-- The confirmation of a press that is reported keeps both toggles: the button is no shift button (41_scan_sequencer.md R170). -/
theorem ScanArm.confirm_reported {e : Event} (st : x.state = .waitPressed) (exp : x.dcnt ≤ 1) (same : rc = .row x.row)
    (he : x.report c kindButtonPress = some e) :
    ScanArm c rc x { x with dcnt := 0, state := .pressed, lpcnt := c.longpressTicks } (some e) := by
  obtain ⟨hband, henc, -⟩ := Scanner.report_some he
  have harm := ScanArm.confirm (c := c) st exp same
  rwa [if_neg hband, if_neg henc, he] at harm

/-- The steps from the two multi states are silent; they end in `Idle` and in `WaitMultiReleased` only by a clear reading at
expiry (41_scan_sequencer.md R165, R166). -/
theorem ScanArm.from_multi (h : ScanArm c rc x y o) (hx : x.state = .multiPressed ∨ x.state = .waitMultiReleased) :
    o = none ∧
    (y.state = x.state ∨ y.state = .multiPressed ∨
      (x.dcnt ≤ 1 ∧ rc = .none ∧
        (x.state = .multiPressed ∧ y.state = .waitMultiReleased ∧ y.dcnt = c.debounceTicks ∨
          x.state = .waitMultiReleased ∧ y.state = .idle))) := by
  cases h with
  | running => exact ⟨rfl, .inl rfl⟩
  | multiAgain => exact ⟨rfl, .inr (.inl rfl)⟩
  | firstClear st exp clear => exact ⟨rfl, .inr (.inr ⟨exp, clear, .inl ⟨st, rfl, rfl⟩⟩)⟩
  | secondClear st exp clear => exact ⟨rfl, .inr (.inr ⟨exp, clear, .inr ⟨st, rfl⟩⟩)⟩
  | advance st | capture _ st | several st | confirm st | pressChanged st | holding st | longPress st | held st | rowCleared st
  | holdChanged st | release st | bounce st | releaseChanged st => simp [st] at hx

end

/-! ### The operation -/

/-- `SCAN_STEP` by the row of the table that applies (41_scan_sequencer.md R151). -/
theorem ScanArm.exec_eq {v : RowVec} {s : State} {y : Scanner} {o : Option Event}
    (h : ScanArm s.cfg (rowClass s.cfg.rows v) s.scan y o) : exec (.scanStep v) s = .next ((s.setScan y).emitOpt o) := by
  change execScanStep v s = _
  rw [execScanStep, h.next_eq]

/-- What a scan step can do: it completes, by one row of the table. -/
theorem exec_scanStep_cases (v : RowVec) (s : State) :
    ∃ y o, ScanArm s.cfg (rowClass s.cfg.rows v) s.scan y o ∧
      exec (.scanStep v) s = .next ((s.setScan y).emitOpt o) :=
  have harm := scanArm_iff.mpr rfl
  ⟨_, _, harm, harm.exec_eq⟩

theorem ScanArm.of_exec {v : RowVec} {s t : State} (h : exec (.scanStep v) s = .next t) :
    ∃ y o, ScanArm s.cfg (rowClass s.cfg.rows v) s.scan y o ∧ t = (s.setScan y).emitOpt o := by
  obtain ⟨y, o, harm, hexec⟩ := exec_scanStep_cases v s
  rw [hexec] at h
  cases h
  exact ⟨y, o, harm, rfl⟩

end Sys2Proof.Machine
end

