-- ==== Sys2Proof/Proofs/Scan/Runs.lean ====
section
/-! SUPPORT. Runs of the sequencer over a list of readings, tied to the runs of the operation; the runs under one repeated
reading: a debounce countdown up to its expiry, a held button, the sweep of the columns (41_scan_sequencer.md R167, R159, R153);
and from them the phases of a single press (R176). -/

namespace Sys2Proof.Machine

/-- `ScanRun c x rcs y es` where the readings `rcs` take the sequencer from `x` to `y` and report `es`, oldest first. -/
inductive ScanRun (c : Config) : Scanner → List RowClass → Scanner → List Event → Prop where
  | nil (x : Scanner) : ScanRun c x [] x []
  | cons {x y z : Scanner} {rc : RowClass} {rcs : List RowClass} {o : Option Event} {es : List Event}
    (arm : ScanArm c rc x y o) (rest : ScanRun c y rcs z es) : ScanRun c x (rc :: rcs) z (o.toList ++ es)

/-- A run of the sequencer is a run of `SCAN_STEP`, which writes the sequencer and enqueues what is reported, and nothing else
(41_scan_sequencer.md R151). -/
theorem ScanRun.runOps_eq {s : State} {vs : List RowVec} {y : Scanner} {es : List Event}
    (h : ScanRun s.cfg s.scan (vs.map (rowClass s.cfg.rows)) y es) :
    runOps (vs.map .scanStep) s = .next { s with scan := y, queue := es.foldl Queue.push s.queue } := by
  induction vs generalizing s es with
  | nil =>
    cases h
    rfl
  | cons v vs ih =>
    cases h with
    | @cons _ u _ _ _ o es arm rest =>
      have hcfg : ((s.setScan u).emitOpt o).cfg = s.cfg := by simp
      have hscan : ((s.setScan u).emitOpt o).scan = u := by simp
      rw [List.map_cons, runOps_cons_next arm.exec_eq, ih (by rwa [hcfg, hscan])]
      cases o <;> rfl

section
variable {c : Config} {x y z : Scanner}

theorem ScanRun.append {rcs rcs' : List RowClass} {es es' : List Event} (h : ScanRun c x rcs y es)
    (h' : ScanRun c y rcs' z es') : ScanRun c x (rcs ++ rcs') z (es ++ es') := by
  induction h with
  | nil => exact h'
  | cons arm _ ih =>
    rw [List.append_assoc]
    exact .cons arm (ih h')

theorem ScanArm.run {rc : RowClass} {o : Option Event} (h : ScanArm c rc x y o) : ScanRun c x [rc] y o.toList := by
  simpa using ScanRun.cons h (.nil y)

/-! ### One reading repeated -/

/-- A debounce countdown of `n` steps: the last is the step at expiry, and the readings before it have no effect
(41_scan_sequencer.md R167). -/
theorem ScanRun.countdown {rc : RowClass} {o : Option Event} {n : Nat} (hpos : 1 ≤ n) (hwait : x.state.isWaiting = true)
    (hn : x.dcnt = n) (hexp : ScanArm c rc { x with dcnt := 1 } y o) : ScanRun c x (List.replicate n rc) y o.toList := by
  induction n, hpos using Nat.le_induction generalizing x with
  | base =>
    rw [← hn] at hexp
    exact hexp.run
  | succ n hpos ih =>
    have hrun : 2 ≤ x.dcnt := by omega
    exact .cons (.running hwait hrun) (ih (x := x.countDown) hwait (Nat.sub_eq_of_eq_add hn) hexp)

/-- A button held after its long press reports nothing more (41_scan_sequencer.md R159). -/
theorem ScanRun.held (hst : x.state = .pressed) (hdone : x.lpcnt = 0) (m : Nat) :
    ScanRun c x (List.replicate m (.row x.row)) x [] := by
  induction m with
  | zero => exact .nil x
  | succ m ih => exact .cons (.held hst rfl hdone) ih

/-- A button held for `m` steps counts its long press down by `m`, and reports it exactly if the countdown runs out
(41_scan_sequencer.md R159). -/
theorem ScanRun.hold {e : Event} (hst : x.state = .pressed) (hrun : 1 ≤ x.lpcnt)
    (he : x.report c kindButtonLongPress = some e) (m : Nat) :
    ScanRun c x (List.replicate m (.row x.row)) { x with lpcnt := x.lpcnt - m } (if x.lpcnt ≤ m then [e] else []) := by
  induction m generalizing x with
  | zero =>
    rw [if_neg (by omega)]
    exact .nil x
  | succ m ih =>
    obtain hlast | hmore : x.lpcnt = 1 ∨ 2 ≤ x.lpcnt := by omega
    · have harm := ScanArm.longPress (c := c) hst rfl hlast
      have hzero : x.lpcnt - (m + 1) = 0 := by omega
      rw [he] at harm
      rw [hzero, if_pos (by omega)]
      exact .cons harm (ScanRun.held (x := { x with lpcnt := 0 }) hst rfl m)
    · have hless : x.lpcnt ≤ m + 1 ↔ x.lpcnt - 1 ≤ m := by omega
      have hsub : x.lpcnt - (m + 1) = x.lpcnt - 1 - m := by omega
      simp only [hless, hsub]
      exact .cons (.holding hst rfl hmore) (ih (x := { x with lpcnt := x.lpcnt - 1 }) hst (Nat.le_sub_one_of_lt hmore) he)

/-- With no row set, `Idle` advances one column a step (41_scan_sequencer.md R153). -/
theorem ScanRun.sweep (hst : x.state = .idle) (hcol : x.col < c.cols) (j : Nat) :
    ScanRun c x (List.replicate j .none) { x with col := (x.col + j) % c.cols } [] := by
  induction j generalizing x with
  | zero =>
    rw [Nat.add_zero, Nat.mod_eq_of_lt hcol]
    exact .nil x
  | succ j ih =>
    have hsum : (x.col + (j + 1)) % c.cols = ((x.col + 1) % c.cols + j) % c.cols := by
      rw [Nat.mod_add_mod, Nat.add_assoc, Nat.add_comm 1 j]
    rw [hsum]
    exact .cons (.advance hst rfl) (ih (x := { x with col := (x.col + 1) % c.cols }) hst (Nat.mod_lt _ (by omega)))

/-! ### The phases of a single press (41_scan_sequencer.md R176) -/

/-- The sequencer in `Pressed`, row `r` held, with `lp` steps left to the long press. -/
def Scanner.pressedOn (x : Scanner) (r lp : Nat) : Scanner := { x with state := .pressed, row := r, dcnt := 0, lpcnt := lp }

/-- The press: the capturing step and the debounce countdown, at whose expiry the press is reported. -/
theorem ScanRun.press {r : Nat} {e : Event} (hdb : 1 ≤ c.debounceTicks) (hst : x.state = .idle)
    (he : ({ x with row := r } : Scanner).report c kindButtonPress = some e) :
    ScanRun c x (List.replicate (c.debounceTicks + 1) (.row r)) (x.pressedOn r c.longpressTicks) [e] :=
  .cons (.capture r hst rfl) (.countdown hdb rfl rfl (.confirm_reported rfl le_rfl rfl he))

/-- The release: the step that reads the row clear and the debounce countdown, at whose expiry the release is reported. -/
theorem ScanRun.release {e : Event} (hdb : 1 ≤ c.debounceTicks) (hst : x.state = .pressed)
    (he : x.report c kindButtonRelease = some e) :
    ScanRun c x (List.replicate (c.debounceTicks + 1) .none) { x with dcnt := 0, state := .idle } [e] := by
  have hexp := ScanArm.release (c := c) (x := { x.enter c .waitReleased with dcnt := 1 }) rfl le_rfl rfl
  have hreport : ({ x.enter c .waitReleased with dcnt := 1 } : Scanner).report c kindButtonRelease = some e := he
  rw [hreport] at hexp
  exact .cons (.rowCleared hst rfl) (.countdown hdb rfl rfl hexp)

/-- The single-press law for the sequencer alone (41_scan_sequencer.md R176). -/
theorem ScanRun.singlePress {r : Nat} {code : Byte} (hc : ConfigLegal c) (hst : x.state = .idle) (hcol : x.col < c.cols)
    (hpress : ({ x with row := r } : Scanner).report c kindButtonPress = some { kind := kindButtonPress, data := code })
    (m j : Nat) :
    ScanRun c x
      (List.replicate (c.debounceTicks + 1 + m) (.row r) ++ List.replicate (c.debounceTicks + 1 + j) .none)
      { x with state := .idle, col := (x.col + j) % c.cols, row := r, dcnt := 0, lpcnt := c.longpressTicks - m }
      ([{ kind := kindButtonPress, data := code }] ++
        (if c.longpressTicks ≤ m then [{ kind := kindButtonLongPress, data := code }] else []) ++
        [{ kind := kindButtonRelease, data := code }]) := by
  have press := ScanRun.press hc.debounce hst hpress
  have hold := ScanRun.hold (x := x.pressedOn r c.longpressTicks) rfl hc.longpress
    (Scanner.report_other_kind hpress kindButtonLongPress) m
  have release := ScanRun.release (x := x.pressedOn r (c.longpressTicks - m)) hc.debounce rfl
    (Scanner.report_other_kind hpress kindButtonRelease)
  have sweep := ScanRun.sweep (x := { x.pressedOn r (c.longpressTicks - m) with state := .idle }) rfl hcol j
  rw [List.replicate_add (c.debounceTicks + 1) m, List.replicate_add (c.debounceTicks + 1) j]
  exact (press.append hold).append (release.append sweep)

end

end Sys2Proof.Machine
end

