-- ==== Sys2Proof/Proofs/Scan/Settled.lean ====
section
/-! PROOFS. The statements of 41_scan_sequencer.md's family, settled. -/

namespace Sys2Proof.Machine

/-- Settles O39: the run of the sequencer is the press, the hold, the release and the sweep, one after the other, and the
operation enqueues what it reports. -/
theorem onePressOneRelease : Obligations.OnePressOneRelease := by
  rintro s v clear r m j x code hlegal hidle hcol hrow hclear rfl hpress
  have run := ScanRun.singlePress hlegal hidle hcol hpress m j
  rw [← hrow, ← hclear, ← List.map_replicate, ← List.map_replicate, ← List.map_append] at run
  have ops := run.runOps_eq
  rw [List.map_append, List.map_replicate, List.map_replicate] at ops
  exact ⟨_, ops, rfl, rfl, rfl⟩

/-- Settles O36: the step is a row of the table, and the rows name what is reported and where the column moves. -/
theorem scanStepFrame : Obligations.ScanStepFrame := by
  intro v s
  obtain ⟨y, o, harm, hexec⟩ := exec_scanStep_cases v s
  refine ⟨_, hexec, ?frame, ?queue, fun hx => by simpa using harm.col_eq hx⟩
  case frame => cases o <;> rfl
  case queue =>
    cases ho : o with
    | none => exact .inl rfl
    | some e =>
      obtain ⟨kind, hge, hle, hreport⟩ := harm.event_eq_some ho
      obtain ⟨-, -, rfl, hzero, hnone⟩ := Scanner.report_some hreport
      exact .inr ⟨e, rfl, hge, hle, hzero, hnone⟩

/-- Settles O37: a report is of a button that is no shift button, and only the confirmation of a press writes a toggle. -/
theorem shiftButtonsAreNeverForwarded : Obligations.ShiftButtonsAreNeverForwarded := by
  intro v s t k hk hexec
  obtain ⟨y, o, harm, rfl⟩ := ScanArm.of_exec hexec
  replace hk : s.scan.heldScan s.cfg = k := hk.symm
  refine ⟨fun hshift => ?silent, ?toggles⟩
  case silent =>
    cases ho : o with
    | none => rfl
    | some e =>
      obtain ⟨kind, -, -, hreport⟩ := harm.event_eq_some ho
      rw [Scanner.report_shift kind (hk ▸ hshift)] at hreport
      cases hreport
  case toggles =>
    simp only [State.emitOpt_scan, State.setScan_scan]
    obtain ⟨hconfirm, hband, henc⟩ | ⟨hother, hband, henc⟩ := harm.toggles
    · simp [hband, henc, hconfirm, hk]
    · simp only [hband, henc, ne_eq, not_true_eq_false, ← and_assoc, hother, false_and, and_self]

/-- Settles O38: by the three kinds of step that the table has from the two multi states. -/
theorem multiPressIsSilentUntilReleased : Obligations.MultiPressIsSilentUntilReleased := by
  intro v s t hmulti hexec
  obtain ⟨y, o, harm, rfl⟩ := ScanArm.of_exec hexec
  obtain ⟨rfl, hcases⟩ := harm.from_multi hmulti
  refine ⟨rfl, ?_⟩
  simp only [State.emitOpt_none, State.setScan_scan]
  obtain hkept | hagain | ⟨exp, clear, ⟨hst, hy, hd⟩ | ⟨hst, hy⟩⟩ := hcases
  · obtain hst | hst := hmulti <;> simp [hkept, hst]
  · simp [hagain]
  · simp [hst, hy, hd, exp, clear]
  · simp [hst, hy, exp, clear]

/-- Settles O30: the three rows of the table from `Idle`. -/
theorem scanStepFromIdle : Obligations.ScanStepFromIdle := by
  intro v s st
  refine ⟨fun clear => ?_, fun r single => ?_, fun multi => ?_⟩
  · exact (ScanArm.advance st clear).exec_eq
  · exact (ScanArm.capture r st single).exec_eq
  · exact (ScanArm.several st multi).exec_eq

/-- Settles O31: the rows of the table from `WaitPressed`; a shift button's press is not reported. -/
theorem scanStepFromWaitPressed : Obligations.ScanStepFromWaitPressed := by
  rintro v s k st (rfl : k = s.scan.heldScan s.cfg)
  refine ⟨fun run => ?_, fun exp other => ?_, fun exp same => ?_⟩
  · exact (ScanArm.running (by rw [st]; rfl) run).exec_eq
  · exact (ScanArm.pressChanged st exp.le other).exec_eq
  · rw [ite_eq_right_iff.mpr fun hshift => (Scanner.report_shift 3 hshift).symm]
    exact (ScanArm.confirm st exp.le same).exec_eq

/-- Settles O32: the rows of the table from `Pressed`. -/
theorem scanStepFromPressed : Obligations.ScanStepFromPressed := by
  intro v s st
  refine ⟨fun same done => ?_, fun same last => ?_, fun same run => ?_, fun clear => ?_, fun other notClear => ?_⟩
  · exact (ScanArm.held st same done).exec_eq
  · exact (ScanArm.longPress st same last).exec_eq
  · exact (ScanArm.holding st same run).exec_eq
  · exact (ScanArm.rowCleared st clear).exec_eq
  · exact (ScanArm.holdChanged st other notClear).exec_eq

/-- Settles O33: the rows of the table from `WaitReleased`. -/
theorem scanStepFromWaitReleased : Obligations.ScanStepFromWaitReleased := by
  intro v s st
  refine ⟨fun run => ?_, fun exp clear => ?_, fun exp same => ?_, fun exp notClear other => ?_⟩
  · exact (ScanArm.running (by rw [st]; rfl) run).exec_eq
  · exact (ScanArm.release st exp.le clear).exec_eq
  · exact (ScanArm.bounce st exp.le same).exec_eq
  · exact (ScanArm.releaseChanged st exp.le notClear other).exec_eq

/-- Settles O34: the rows of the table from the two multi states. -/
theorem scanStepFromMultiStates : Obligations.ScanStepFromMultiStates := by
  intro v s st
  have hwait : s.scan.state.isWaiting = true := by
    obtain st | st := st <;> rw [st] <;> rfl
  refine ⟨fun run => ?_, fun exp notClear => ?_, fun exp clear first => ?_, fun exp clear second => ?_⟩
  · exact (ScanArm.running hwait run).exec_eq
  · exact (ScanArm.multiAgain st exp.le notClear).exec_eq
  · exact (ScanArm.firstClear first exp.le clear).exec_eq
  · exact (ScanArm.secondClear second exp.le clear).exec_eq

/-- Settles O35: the scan code and the table entry written out. -/
theorem reportClassifiesTheHeldButton : Obligations.ReportClassifiesTheHeldButton := by
  rintro x c kind k h e (rfl : k = x.heldScan c) he
  have hclassify : classify c (x.heldScan c) x.bandShift x.encShift = e := by
    rw [he, classify, reportIndex, reportEntry_eq_getElem c h]
  by_cases hshift : x.heldScan c = 9 ∨ x.heldScan c = 27
  · rw [Scanner.report_shift kind hshift, if_pos (by tauto)]
  · simp only [Scanner.report_ordinary kind hshift, hclassify, ← or_assoc, hshift, false_or]

end Sys2Proof.Machine
end

