-- ==== Sys2Proof/Proofs/Queue/Fifo.lean ====
section
/-! SUPPORT. The circular queue as a list of at most 15 events (42_event_queue.md R199): what an enqueue appends, what a dequeue
answers, and runs of either. -/

namespace Sys2Proof.Machine

/-! ### One operation on the queue -/

/-- The full condition by the depth (42_event_queue.md R191). -/
theorem Queue.full_iff (q : Queue) : q.w + 1 = q.r ↔ q.depth = 15 := by
  unfold Queue.depth
  bv_omega

/-- An enqueue on the list of events held (42_event_queue.md R192, R193). -/
theorem Queue.contents_push_eq (q : Queue) (e : Event) :
    (q.push e).contents = if q.contents.length < 15 then q.contents ++ [e] else q.contents := by
  have hlt : q.depth < 16 := (q.w - q.r).isLt
  rw [q.contents_length]
  obtain ⟨hfull, hpush⟩ | ⟨hroom, hpush⟩ := q.push_cases e
  · have hdepth := q.full_iff.mp hfull
    rw [hpush, if_neg (by omega)]
  · have hdepth := mt q.full_iff.mpr hroom
    rw [hpush, if_pos (by omega), Queue.contents_push e hroom]

/-- Every successful enqueue raises the ready line (42_event_queue.md R194). -/
theorem Queue.ready_push_of_room {q : Queue} (h : q.depth < 15) (e : Event) : (q.push e).ready = true := by
  obtain ⟨hfull, -⟩ | ⟨-, hpush⟩ := q.push_cases e
  · have hdepth := q.full_iff.mp hfull
    omega
  · rw [hpush]

/-- No enqueue lowers the ready line. -/
theorem Queue.ready_push {q : Queue} (h : q.ready = true) (e : Event) : (q.push e).ready = true := by
  obtain hfull | ⟨-, hready⟩ := q.push_contents_cases e
  · rwa [hfull]
  · exact hready

/-- A dequeue of the empty queue (42_event_queue.md R195). -/
theorem Queue.pop_of_empty {q : Queue} (h : q.depth = 0) : q.pop = (0x0000, { q with ready := false }) := by
  obtain ⟨-, hpop⟩ | ⟨hd, -⟩ | ⟨hd, -⟩ := q.pop_cases
  · exact hpop
  all_goals omega

/-- A dequeue with an event held (42_event_queue.md R195, R197, R198). -/
theorem Queue.pop_of_held {q : Queue} (h : 1 ≤ q.depth) :
    q.pop = (eventWord (q.depth - 1) q.slot[q.r.toNat],
      { q with r := q.r + 1, ready := if q.depth = 1 then false else q.ready }) := by
  obtain ⟨hd, -⟩ | ⟨hd, hpop⟩ | ⟨hd, hpop⟩ := q.pop_cases
  · omega
  · rw [hpop, if_pos hd, hd]
  · rw [hpop, if_neg (by omega)]

theorem Queue.depth_of_contents {q : Queue} {es : List Event} (h : q.contents = es) : q.depth = es.length := by
  rw [← q.contents_length, h]

/-- The oldest event held is in the slot at the read index (42_event_queue.md R190). -/
theorem Queue.slot_r_of_contents {q : Queue} {e : Event} {es : List Event} (h : q.contents = e :: es) :
    q.slot[q.r.toNat] = e := by
  have hdepth : q.depth = es.length + 1 := Queue.depth_of_contents h
  have hhead : q.contents.head? = some q.slot[q.r.toNat] := by
    simp [Queue.contents, hdepth, List.range_succ_eq_map, Nat.mod_eq_of_lt q.r.isLt]
  rw [h, List.head?_cons, Option.some.injEq] at hhead
  exact hhead.symm

/-- The word of a dequeue by the list of events held (42_event_queue.md R195). -/
theorem Queue.pop_word_of_contents {q : Queue} {e : Event} {es : List Event} (h : q.contents = e :: es) :
    q.pop.1 = eventWord es.length e := by
  have hdepth : q.depth = es.length + 1 := Queue.depth_of_contents h
  rw [Queue.pop_of_held (by omega), Queue.slot_r_of_contents h, hdepth, Nat.add_sub_cancel]

/-- After any dequeue the ready line is up only with an event held (42_event_queue.md R197). -/
theorem Queue.held_of_ready_pop {q : Queue} (h : q.pop.2.ready = true) : q.pop.2.contents ≠ [] := by
  obtain ⟨-, hdepth⟩ := q.ready_pop.mp h
  rw [q.contents_pop, ← List.length_pos_iff, List.length_tail, q.contents_length]
  omega

/-! ### The two operations -/

/-- An enqueue on a full queue (42_event_queue.md R192). -/
theorem State.emit_of_full {s : State} (h : s.queue.w + 1 = s.queue.r) (e : Event) : s.emit e = s := by
  obtain ⟨-, hpush⟩ | ⟨hroom, -⟩ := s.queue.push_cases e
  · rw [State.emit, hpush]
    rfl
  · exact absurd h hroom

/-- An enqueue where there is room (42_event_queue.md R193, R194). -/
theorem State.emit_of_room {s : State} (h : s.queue.w + 1 ≠ s.queue.r) (e : Event) :
    s.emit e = s.setQueue { slot := s.queue.slot.set s.queue.w.toNat e, w := s.queue.w + 1, r := s.queue.r, ready := true } := by
  obtain ⟨hfull, -⟩ | ⟨-, hpush⟩ := s.queue.push_cases e
  · exact absurd hfull h
  · rw [State.emit, hpush]

theorem exec_enqueue (e : Event) (s : State) : exec (.enqueue e.kind e.data) s = .next (s.emit e) := rfl

/-- The state a dequeue leaves: the queue after the pop, and the word handed out (42_event_queue.md R195). -/
def State.dequeued (s : State) : State := (s.setQueue s.queue.pop.2).setWorld { s.world with retWord := s.queue.pop.1 }

@[simp] theorem State.dequeued_queue (s : State) : s.dequeued.queue = s.queue.pop.2 := rfl
@[simp] theorem State.dequeued_retWord (s : State) : s.dequeued.world.retWord = s.queue.pop.1 := rfl

/-- A dequeue leaves the events behind the oldest (42_event_queue.md R195). -/
theorem State.dequeued_contents {s : State} {e : Event} {es : List Event} (h : s.queue.contents = e :: es) :
    s.dequeued.queue.contents = es := by
  rw [s.dequeued_queue, s.queue.contents_pop, h, List.tail_cons]

theorem exec_dequeue (s : State) : exec .dequeue s = .next s.dequeued := rfl

/-! ### Enqueues in a row -/

/-- Enqueues in a row append their events one by one, and write nothing but the queue. -/
theorem runOps_enqueues (es : List Event) (s : State) :
    runOps (es.map fun e => .enqueue e.kind e.data) s = .next (s.setQueue (es.foldl Queue.push s.queue)) := by
  induction es generalizing s with
  | nil => rfl
  | cons e es ih =>
    rw [List.map_cons, runOps_cons_next (exec_enqueue e s), ih]
    rfl

/-- As long as there is room for all of them, every event is appended (42_event_queue.md R199). -/
theorem Queue.contents_foldl_push {q : Queue} {es : List Event} (h : q.contents.length + es.length ≤ 15) :
    (es.foldl Queue.push q).contents = q.contents ++ es := by
  induction es generalizing q with
  | nil => simp
  | cons e es ih =>
    rw [List.length_cons] at h
    have hpush : (q.push e).contents = q.contents ++ [e] := by
      rw [q.contents_push_eq, if_pos (by omega)]
    have hroom : (q.push e).contents.length + es.length ≤ 15 := by
      rw [hpush, List.length_append, List.length_singleton]
      omega
    rw [List.foldl_cons, ih hroom, hpush, List.append_assoc, List.singleton_append]

/-- Enqueues keep a ready line that is up. -/
theorem Queue.ready_foldl_push {q : Queue} (h : q.ready = true) (es : List Event) :
    (es.foldl Queue.push q).ready = true := by
  induction es generalizing q with
  | nil => exact h
  | cons e es ih => exact ih (Queue.ready_push h e)

/-- After enqueues of which the first had room, the ready line is up (42_event_queue.md R194). -/
theorem Queue.ready_foldl_push_of_room {q : Queue} {es : List Event} (h : q.depth < 15) (hes : es ≠ []) :
    (es.foldl Queue.push q).ready = true := by
  cases es with
  | nil => exact absurd rfl hes
  | cons e es => exact Queue.ready_foldl_push (Queue.ready_push_of_room h e) es

/-- From an empty queue, 1 to 15 enqueues leave exactly their events held, and the ready line up (42_event_queue.md R199). -/
theorem runOps_enqueues_fill {s : State} {es : List Event} (hempty : s.queue.depth = 0) (hes : es ≠ [])
    (hle : es.length ≤ 15) :
    ∃ t, runOps (es.map fun e => .enqueue e.kind e.data) s = .next t ∧ t.queue.contents = es ∧ t.queue.ready = true := by
  have hroom : s.queue.contents.length + es.length ≤ 15 := by rwa [s.queue.contents_length, hempty, Nat.zero_add]
  refine ⟨_, runOps_enqueues es s, ?_, Queue.ready_foldl_push_of_room (by omega) hes⟩
  rw [State.setQueue_queue, Queue.contents_foldl_push hroom, s.queue.contents_eq_nil_iff.mpr hempty, List.nil_append]

/-! ### Dequeues in a row -/

theorem drain_succ (k : Nat) (s : State) :
    drain (k + 1) s = (s.queue.pop.1 :: (drain k s.dequeued).1, (drain k s.dequeued).2) := rfl

/-- As many dequeues as there are events return them in order, each with the number left (42_event_queue.md R199). -/
theorem drain_words {s : State} {es : List Event} (h : s.queue.contents = es) :
    (drain es.length s).1 = es.mapIdx fun i e => eventWord (es.length - 1 - i) e := by
  induction es generalizing s with
  | nil => rfl
  | cons e es ih =>
    simp only [List.length_cons, drain_succ, List.mapIdx_cons, Queue.pop_word_of_contents h, ih (State.dequeued_contents h),
      Nat.add_sub_cancel, Nat.sub_zero, Nat.sub_sub, Nat.add_comm 1]

/-- As many dequeues as there are events empty the queue, and the ready line, up only with an event held, is down then. -/
theorem drain_empties {s : State} {es : List Event} (h : s.queue.contents = es)
    (hready : s.queue.ready = true → s.queue.contents ≠ []) :
    (drain es.length s).2.queue.contents = [] ∧ (drain es.length s).2.queue.ready = false := by
  induction es generalizing s with
  | nil => exact ⟨h, Bool.eq_false_iff.mpr fun hup => hready hup h⟩
  | cons e es ih =>
    exact ih (State.dequeued_contents h) Queue.held_of_ready_pop

end Sys2Proof.Machine
end

