-- ==== Sys2Proof/Proofs/Queue/Settled.lean ====
section
/-! PROOFS. The statements of 42_event_queue.md's family, settled. -/

namespace Sys2Proof.Machine

/-- Settles O19: both operations complete, and the list after them and the word are read off the queue's own laws. -/
theorem queueRefinesAFifoList : Obligations.QueueRefinesAFifoList := by
  intro s
  refine ⟨fun kind data => ⟨_, exec_enqueue ⟨kind, data⟩ s, s.queue.contents_push_eq _⟩,
    _, exec_dequeue s, s.queue.contents_pop, fun e es held => ?_, fun hnil => ?_⟩
  · exact Queue.pop_word_of_contents held
  · rw [s.dequeued_retWord, Queue.pop_of_empty (s.queue.contents_eq_nil_iff.mp hnil)]

/-- Settles O20: the enqueues all find room, so the queue holds exactly the list, which the dequeues hand out and empty. -/
theorem fifoReturnsEventsInOrder : Obligations.FifoReturnsEventsInOrder := by
  intro s es hwr hpos hle
  have hempty : s.queue.depth = 0 := by simp [Queue.depth, hwr]
  obtain ⟨t, hops, hcontents, hready⟩ := runOps_enqueues_fill hempty (List.length_pos_iff.mp hpos) hle
  have hdepth : t.queue.depth = es.length := Queue.depth_of_contents hcontents
  obtain ⟨hdrained, hlow⟩ := drain_empties hcontents fun _ => hcontents ▸ List.length_pos_iff.mp hpos
  refine ⟨t, hops, hdepth, hready, drain_words hcontents, Queue.depth_of_contents hdrained, hlow, fun h15 kind data => ?_⟩
  have hfull : t.queue.w + 1 = t.queue.r := t.queue.full_iff.mpr (hdepth.trans h15)
  rw [exec_enqueue ⟨kind, data⟩ t, State.emit_of_full hfull]

/-- Settles O17: the two cases of an enqueue. -/
theorem enqueueAppendsOrDrops : Obligations.EnqueueAppendsOrDrops := by
  intro kind data s
  rw [exec_enqueue ⟨kind, data⟩ s]
  exact ⟨fun full => congrArg _ (State.emit_of_full full _), fun room => congrArg _ (State.emit_of_room room _)⟩

/-- Settles O18: the pop of an empty queue, and that of a queue with an event held. -/
theorem dequeueTakesTheOldest : Obligations.DequeueTakesTheOldest := by
  rintro s d (rfl : d = s.queue.depth)
  rw [exec_dequeue, State.dequeued]
  refine ⟨fun empty => ?_, fun held => ?_⟩
  · rw [Queue.pop_of_empty empty]
    rfl
  · rw [Queue.pop_of_held held]
    rfl

end Sys2Proof.Machine
end

