-- ==== Sys2Proof/Proofs/Led/Projection.lean ====
section
/-! SUPPORT. The LED projection bit by bit (43_led_projection.md R211). -/

namespace Sys2Proof.Machine

/-- The one bit that a LED write addresses; a bit number above 10 addresses none (log 25). -/
theorem getLsbD_ledMask (k : Nat) {i : Nat} (hi : i ≤ 10) : ((1 : LedPort) <<< k).getLsbD i = decide (i = k) := by
  have hbit : ((1 : LedPort) <<< k).getLsbD i = (decide (k < 11) && decide (k = i)) := BitVec.getLsbD_twoPow k i
  by_cases h : i = k
  · rw [hbit, decide_eq_true (by omega), decide_eq_true h.symm, decide_eq_true h, Bool.true_and]
  · rw [hbit, decide_eq_false (Ne.symm h), decide_eq_false h, Bool.and_false]

/-- A write of one LED bit sets that bit and keeps the others. -/
theorem getLsbD_setLedBit (v : LedPort) (k : Nat) (b : Bool) {i : Nat} (hi : i ≤ 10) :
    (setLedBit v k b).getLsbD i = if i = k then b else v.getLsbD i := by
  have hin : i < 11 := by omega
  cases b with
  | true =>
    calc (v ||| (1 : LedPort) <<< k).getLsbD i
        = (v.getLsbD i || decide (i = k)) := by rw [BitVec.getLsbD_or, getLsbD_ledMask k hi]
      _ = if i = k then true else v.getLsbD i := by by_cases h : i = k <;> simp [h]
  | false =>
    calc (v &&& ~~~((1 : LedPort) <<< k)).getLsbD i
        = (v.getLsbD i && !decide (i = k)) := by
          rw [BitVec.getLsbD_and, BitVec.getLsbD_not, getLsbD_ledMask k hi, decide_eq_true hin, Bool.true_and]
      _ = if i = k then false else v.getLsbD i := by by_cases h : i = k <;> simp [h]

/-- The eleven LED bits of the host word, kept in place (30_encoding.md R105). -/
theorem getLsbD_hostLeds (w : Word) {i : Nat} (hi : i ≤ 10) : (w.extractLsb' 0 11).getLsbD i = w.getLsbD i := by
  rw [BitVec.getLsbD_extractLsb', decide_eq_true (by omega), Bool.true_and, Nat.zero_add]

/-- Each projected bit: the host's under override, else the later of the two shift writes to it, else the host's
(43_led_projection.md R211, R212). -/
theorem State.getLsbD_projectLeds (s : State) {i : Nat} (hi : i ≤ 10) :
    (projectLeds s.cfg s.bus.ledHost s.scan.bandShift s.scan.encShift).getLsbD i = s.ledBit i := by
  unfold projectLeds State.ledBit
  split
  case isTrue => exact getLsbD_hostLeds s.bus.ledHost hi
  case isFalse => rw [getLsbD_setLedBit _ _ _ hi, getLsbD_setLedBit _ _ _ hi, getLsbD_hostLeds s.bus.ledHost hi]

theorem exec_ledProject (s : State) :
    exec .ledProject s = .next (s.setLedOut (projectLeds s.cfg s.bus.ledHost s.scan.bandShift s.scan.encShift)) := rfl

end Sys2Proof.Machine
end

