-- ==== Sys2Proof/Proofs/Led/Settled.lean ====
section
/-! PROOFS. The statement of 43_led_projection.md's family, settled. -/

namespace Sys2Proof.Machine

/-- Settles O40: the projection is one write of the LED port, whose bits `State.getLsbD_projectLeds` gives. -/
theorem ledProjectionDrivesEveryBit : Obligations.LedProjectionDrivesEveryBit :=
  fun s => ⟨_, exec_ledProject s, rfl, fun _ hi => s.getLsbD_projectLeds hi⟩

end Sys2Proof.Machine
end

