-- ==== Sys2Proof/Proofs/Bus/Writes.lean ====
section
/-! SUPPORT. The bus operations of a write: what each of them answers, the step in which one runs, and the transactions that
are none (44_bus_protocol.md R221, R232 to R235). -/

namespace Sys2Proof.Machine

/-! ### The write operations -/

theorem exec_busWrSel (b0 : Byte) (s : State) : exec (.busWrSel b0) s = .next (s.select b0) := rfl

theorem exec_busWrShort (b0 b1 : Byte) (s : State) : exec (.busWrShort b0 b1) s = .next (s.select b0) := rfl

theorem exec_busWrLed (lo hi : Byte) (rest : List Byte) (s : State) :
    exec (.busWrLed lo hi rest) s = .next (s.setBus { regsel := s.cfg.regMap.led, ledHost := hi ++ lo }) := rfl

theorem exec_busWrIgnored (b0 lo hi : Byte) (rest : List Byte) (s : State) :
    exec (.busWrIgnored b0 lo hi rest) s = .next (s.select b0) := rfl

/-- The step of a decoded write, with the act used up (30_encoding.md R112). -/
theorem step_of_write {s : State} {b : List Byte} {acts : List Act} {i : Instr} (act : s.world.inbox = .write b :: acts)
    (hd : decode s.cfg.regMap (.write b) = .ok i) :
    step s = exec i { s with world := { s.world with inbox := acts } } :=
  (stepRunsTheDecodedOperation s _ acts rfl).1 b i act hd

/-! ### Transactions that are no operation -/

/-- A write of no byte is turned away (44_bus_protocol.md R232). -/
@[simp] theorem decode_write_nil (m : RegMap) : decode m (.write []) = .error .emptyWrite := rfl

/-- No write of a byte or more is turned away (44_bus_protocol.md R221). -/
theorem exists_decode_write_cons (m : RegMap) (b0 : Byte) (bs : List Byte) :
    ∃ i, decode m (.write (b0 :: bs)) = .ok i := by
  match bs with
  | [] => exact ⟨_, decode_write_one m b0⟩
  | [b1] => exact ⟨_, decode_write_two m b0 b1⟩
  | lo :: hi :: rest =>
    by_cases hled : b0 = m.led
    · exact ⟨_, hled ▸ decode_write_led m lo hi rest⟩
    · exact ⟨_, decode_write_other hled lo hi rest⟩

theorem decode_write_error_iff (m : RegMap) (b : List Byte) : (∃ e, decode m (.write b) = .error e) ↔ b = [] := by
  cases b with
  | nil => exact iff_of_true ⟨_, decode_write_nil m⟩ rfl
  | cons b0 bs =>
    obtain ⟨i, hi⟩ := exists_decode_write_cons m b0 bs
    simp [hi]

theorem decode_read_error_iff (m : RegMap) (sel : Byte) (n : Nat) :
    (∃ e, decode m (.read sel n) = .error e) ↔ n = 0 := by
  by_cases hn : n = 0
  · subst hn
    exact iff_of_true ⟨_, decode_read_zero m sel⟩ rfl
  · simp [decode_read sel hn, hn]

/-- A write act of no byte is refused (44_bus_protocol.md R232). -/
theorem step_of_write_nil {s : State} {acts : List Act} (act : s.world.inbox = .write [] :: acts) :
    step s = .refused .emptyWrite :=
  step_of_decode_error (fetch_write act) (decode_write_nil s.cfg.regMap)

/-- A read act of no byte is refused, whatever register is selected (44_bus_protocol.md R232). -/
theorem step_of_read_zero {s : State} {acts : List Act} (act : s.world.inbox = .read 0 :: acts) :
    step s = .refused .emptyRead :=
  step_of_decode_error (fetch_read act) (decode_read_zero s.cfg.regMap s.bus.regsel)

end Sys2Proof.Machine
end

