-- ==== Sys2Proof/Proofs/Bus/Responses.lean ====
section
/-! SUPPORT. The general form of a read (44_bus_protocol.md R228): the bytes of a response carry its word, and a read leaves
everything but the queue and the response. Then the word of a LED read, bit by bit (R226). -/

namespace Sys2Proof.Machine

/-! ### The bytes of a word (20_memory.md R72) -/

theorem lowByte_eq_ofNat (w : Word) : lowByte w = BitVec.ofNat 8 w.toNat :=
  BitVec.eq_of_toNat_eq (by simp [lowByte])

theorem highByte_eq_ofNat (w : Word) : highByte w = BitVec.ofNat 8 (w.toNat / 256) :=
  BitVec.eq_of_toNat_eq (by simp [highByte, Nat.shiftRight_eq_div_pow])

/-- A response of a byte or more carries its word, low byte first, whatever the draws after it are. -/
theorem responseCarries_responseBytes (w : Word) (k : Nat) {n : Nat} (hn : 1 ≤ n) :
    ResponseCarries w n (responseBytes w k n) := by
  refine ⟨responseBytes_length w k n, ?low, fun h2 => ?high⟩
  case low =>
    match n, hn with
    | 1, _ => exact congrArg some (lowByte_eq_ofNat w)
    | _ + 2, _ => exact congrArg some (lowByte_eq_ofNat w)
  case high =>
    match n, h2 with
    | _ + 2, _ => exact congrArg some (highByte_eq_ofNat w)

/-! ### Reads -/

/-- A read of a byte or more answers the response that carries its word, leaves the queue it was given, and is otherwise the
state before it (44_bus_protocol.md R228). -/
theorem busRead_answers {n : Nat} (hn : 1 ≤ n) (w : Word) (q : Queue) (s : State) :
    ∃ t, busRead n w q s = .next t ∧ ResponseCarries w n t.world.resp ∧ s.world.ReadBy t.world ∧
      t = { s with queue := q, world := t.world } :=
  ⟨_, busRead_of_ne_zero (Nat.one_le_iff_ne_zero.mp hn) w q s, responseCarries_responseBytes w s.world.draws hn, rfl, rfl⟩

theorem busRead_zero (w : Word) (q : Queue) (s : State) : busRead 0 w q s = .refused .emptyRead := rfl

theorem exec_busRdId (n : Nat) (s : State) :
    exec (.busRdId n) s = busRead n (s.cfg.productId ++ s.cfg.fwVersion) s.queue.clearReady s := rfl

theorem exec_busRdHw (n : Nat) (s : State) :
    exec (.busRdHw n) s = busRead n ((0x00 : Byte) ++ s.cfg.hwRev) s.queue.clearReady s := rfl

theorem exec_busRdLed (n : Nat) (s : State) :
    exec (.busRdLed n) s = busRead n (ledReadWord s.cfg s.bus.ledHost s.scan.bandShift s.scan.encShift) s.queue s := rfl

theorem exec_busRdEvent (n : Nat) (s : State) : exec (.busRdEvent n) s = busRead n s.queue.pop.1 s.queue.pop.2 s := rfl

theorem exec_busRdUndef (sel : Byte) (n : Nat) (s : State) :
    exec (.busRdUndef sel n) s = busRead n (Config.freeWord s.world.draws) s.queue s := rfl

/-! ### The word of a LED read (44_bus_protocol.md R226) -/

section
variable {c : Config} (host : Word) (band enc : Bool)

theorem ledReadWord_hostWord (h : c.ledReadback = .hostWord) : ledReadWord c host band enc = host := by
  simp [ledReadWord, h]

/-- Under `PROJECTED`, each bit of the word by its place: the eleven projected bits, four zeros, the host's bit 15. -/
theorem getLsbD_ledReadWord_projected (h : c.ledReadback = .projected) (i : Nat) :
    (ledReadWord c host band enc).getLsbD i =
      if i < 11 then (projectLeds c host band enc).getLsbD i
      else if i < 15 then false
      else (host.extractLsb' 15 1).getLsbD (i - 15) := by
  have hword : ledReadWord c host band enc = host.extractLsb' 15 1 ++ (0 : BitVec 4) ++ projectLeds c host band enc := by
    simp only [ledReadWord, h]
  rw [hword]
  refine BitVec.getLsbD_append.trans ?_
  split_ifs with hport hzeros
  · rfl
  · rw [BitVec.getLsbD_append, if_pos (by omega)]
    exact BitVec.getLsbD_zero
  · rw [BitVec.getLsbD_append, if_neg (by omega), Nat.sub_sub]

theorem getLsbD_ledReadWord_override (h : c.ledReadback = .projected) :
    (ledReadWord c host band enc).getLsbD 15 = host.getLsbD 15 := by
  rw [getLsbD_ledReadWord_projected host band enc h, if_neg (by decide), if_neg (by decide), BitVec.getLsbD_extractLsb']
  rfl

theorem getLsbD_ledReadWord_unused (h : c.ledReadback = .projected) {i : Nat} (hlo : 11 ≤ i) (hhi : i ≤ 14) :
    (ledReadWord c host band enc).getLsbD i = false := by
  rw [getLsbD_ledReadWord_projected host band enc h, if_neg (by omega), if_pos (by omega)]

theorem getLsbD_ledReadWord_led (h : c.ledReadback = .projected) {i : Nat} (hi : i ≤ 10) :
    (ledReadWord c host band enc).getLsbD i = (projectLeds c host band enc).getLsbD i := by
  rw [getLsbD_ledReadWord_projected host band enc h, if_pos (by omega)]

end

end Sys2Proof.Machine
end

