-- ==== Sys2Proof/Proofs/Bus/Settled.lean ====
section
/-! PROOFS. The statements of 44_bus_protocol.md's family, settled. -/

namespace Sys2Proof.Machine

/-- Settles O9: the write operation that the length and the select byte choose, run with the act used up. -/
theorem writeTransactionStep : Obligations.WriteTransactionStep := by
  intro s b acts act
  refine ⟨?empty, ?bytes⟩
  case empty =>
    rintro rfl
    exact step_of_write_nil act
  case bytes =>
    rintro b0 bs rfl
    match bs, act with
    | [], act => rw [step_of_write act (decode_write_one _ b0), exec_busWrSel]; rfl
    | [b1], act => rw [step_of_write act (decode_write_two _ b0 b1), exec_busWrShort]; rfl
    | lo :: hi :: rest, act =>
      by_cases hled : b0 = s.cfg.regMap.led
      · subst hled
        rw [step_of_write act (decode_write_led _ lo hi rest), exec_busWrLed]
        simp only [if_true]
        rfl
      · rw [step_of_write act (decode_write_other hled lo hi rest), exec_busWrIgnored]
        simp only [if_neg hled]
        rfl

/-- Settles O12: the general read on the LED word, whose bits under `PROJECTED` are its layout's and, for the eleven LEDs,
the projection's of now. -/
theorem ledReadReturnsHostOrProjectedWord : Obligations.LedReadReturnsHostOrProjectedWord := by
  intro n s hn
  obtain ⟨t, hexec, hresp, hread, hframe⟩ := busRead_answers hn _ s.queue s
  refine ⟨t, _, (exec_busRdLed n s).trans hexec, hresp, hread, hframe, fun hmode => ?hostWord, fun hmode => ?projected⟩
  case hostWord => exact ledReadWord_hostWord _ _ _ hmode
  case projected =>
    refine ⟨getLsbD_ledReadWord_override _ _ _ hmode, fun i => getLsbD_ledReadWord_unused _ _ _ hmode, fun i hi => ?_⟩
    exact (getLsbD_ledReadWord_led _ _ _ hmode hi).trans (s.getLsbD_projectLeds hi)

/-- Settles O3: by the direction of the transaction. -/
theorem onlyEmptyTransactionsAreNotDecoded : Obligations.OnlyEmptyTransactionsAreNotDecoded := by
  intro m f
  cases f with
  | write b => simp [decode_write_error_iff]
  | read sel n => simp [decode_read_error_iff]

/-- Settles O7: the three operations are the one write of `regsel`. -/
theorem writesWithoutLedValueOnlySelect : Obligations.WritesWithoutLedValueOnlySelect :=
  fun b0 b1 lo hi rest s => ⟨exec_busWrSel b0 s, exec_busWrShort b0 b1 s, exec_busWrIgnored b0 lo hi rest s⟩

/-- Settles O8: the operation is one write of the register interface. -/
theorem ledWriteSetsTheLedWord : Obligations.LedWriteSetsTheLedWord := exec_busWrLed

/-- Settles O10: the general read on the ID/Version word and the cleared ready line. -/
theorem idReadReturnsIdAndClearsReady : Obligations.IdReadReturnsIdAndClearsReady := by
  intro n s hn
  rw [exec_busRdId]
  exact busRead_answers hn _ s.queue.clearReady s

/-- Settles O11: the general read on the HW-Version word and the cleared ready line. -/
theorem hwReadReturnsRevisionAndClearsReady : Obligations.HwReadReturnsRevisionAndClearsReady := by
  intro n s hn
  rw [exec_busRdHw]
  exact busRead_answers hn _ s.queue.clearReady s

/-- Settles O13: the general read on the word and the queue that one pop gives, as the dequeue has them. -/
theorem eventReadDequeuesOneEvent : Obligations.EventReadDequeuesOneEvent := by
  intro n s hn
  obtain ⟨t, hexec, hresp, hread, hframe⟩ := busRead_answers hn s.queue.pop.1 s.queue.pop.2 s
  exact ⟨t, s.dequeued, (exec_busRdEvent n s).trans hexec, exec_dequeue s, hresp, hread, hframe⟩

/-- Settles O14: the general read on the draw, with the queue as it was. -/
theorem unrecognisedReadReturnsADraw : Obligations.UnrecognisedReadReturnsADraw := by
  intro sel n s hn
  rw [exec_busRdUndef]
  exact busRead_answers hn _ s.queue s

/-- Settles O15: the two empty acts are turned away by the decoder, and each read operation by the general read. -/
theorem emptyTransactionsAreRefused : Obligations.EmptyTransactionsAreRefused := by
  intro sel s acts
  refine ⟨step_of_write_nil, step_of_read_zero, ?id, ?hw, ?led, ?event, ?undef⟩
  case id => rw [exec_busRdId, busRead_zero]
  case hw => rw [exec_busRdHw, busRead_zero]
  case led => rw [exec_busRdLed, busRead_zero]
  case event => rw [exec_busRdEvent, busRead_zero]
  case undef => rw [exec_busRdUndef, busRead_zero]

end Sys2Proof.Machine
end

