-- ==== Sys2Proof/Proofs/Tick/Turn.lean ====
section
/-! SUPPORT. The tick agent's step at each position (45_tick_scheduler.md R251): it runs the position's operation, always
completes, and so is one of its moves. -/

namespace Sys2Proof.Machine

/-- A step of the tick agent runs the operations of its position, with the act used up, and advances the position. -/
theorem step_of_tickOps {s t : State} {ops : List Instr} (turn : s.tickTurn) (hops : tickOps s = ops)
    (hrun : runOps ops s.popInbox = .next t) : step s = .next (t.setTphase (nextTphase s.tphase)) := by
  rw [step_of_fetch (fetch_tickTurn turn), fetchTick, hops, hrun]
  rfl

/-- Where a position has one operation, the step is that operation and the advance of the position. -/
theorem step_of_tickOp {s t : State} {p q : TPhase} {i : Instr} (turn : s.tickTurn) (pos : s.tphase = p)
    (hops : tickOps s = [i]) (hexec : exec i s.popInbox = .next t) (hnext : nextTphase p = q) :
    step s = .next (t.setTphase q) := by
  rw [← hnext, ← pos]
  exact step_of_tickOps turn hops ((runOps_singleton i _).trans hexec)

theorem tickOps_t0Sample {s : State} (pos : s.tphase = .t0Sample) : tickOps s = [.tickSample] := by
  simp only [tickOps, pos]

theorem tickOps_t2Decode {s : State} {k : Fin 11} (pos : s.tphase = .t2Decode k) : tickOps s = [decodeService k] := by
  simp only [tickOps, pos]

theorem tickOps_t3Scan {s : State} (pos : s.tphase = .t3Scan) : tickOps s = [.scanStep s.latch.rowsmp] := by
  simp only [tickOps, pos]

theorem tickOps_t4Led {s : State} (pos : s.tphase = .t4Led) : tickOps s = [.ledProject] := by
  simp only [tickOps, pos]

/-- In `WAIT` the step runs nothing: the timer starts a tick (45_tick_scheduler.md R250). -/
theorem step_wait {s : State} (turn : s.tickTurn) (pos : s.tphase = .wait) :
    step s = .next (s.popInbox.setTphase .t0Sample) := by
  have hops : tickOps s = [] := by simp only [tickOps, pos]
  rw [step_of_tickOps turn hops rfl, pos]
  rfl

end Sys2Proof.Machine
end

