-- ==== Sys2Proof/Proofs/Tick/SubSteps.lean ====
section
/-! PROOFS. The statement on the sub-steps of a tick (45_tick_scheduler.md R251, R254 to R256), settled. -/

namespace Sys2Proof.Machine

/-- Settles O43: at each position, the equation of the operation that `tickOps` selects there. -/
theorem tickStepRunsItsSubStep : Obligations.TickStepRunsItsSubStep := by
  rintro s u turn (rfl : u = s.popInbox)
  refine ⟨step_wait turn, fun pos => ?sample, fun pos => ?vfo, fun ch pos => ?encoder, fun pos => ?scan, fun pos => ?led⟩
  case sample => exact ⟨_, exec_tickSample _, step_of_tickOp turn pos (tickOps_t0Sample pos) (exec_tickSample _) rfl⟩
  case vfo => exact ⟨_, exec_vfoService _, step_of_tickOp turn pos (tickOps_t2Decode pos) (exec_vfoService _) rfl⟩
  case encoder => exact ⟨_, exec_encService ch _, step_of_tickOp turn pos (tickOps_t2Decode pos) (exec_encService ch _) rfl⟩
  case scan =>
    obtain ⟨y, o, -, hexec⟩ := exec_scanStep_cases s.latch.rowsmp s.popInbox
    exact ⟨_, hexec, step_of_tickOp turn pos (tickOps_t3Scan pos) hexec rfl⟩
  case led => exact ⟨_, exec_ledProject _, step_of_tickOp turn pos (tickOps_t4Led pos) (exec_ledProject _) rfl⟩

end Sys2Proof.Machine
end

