-- ==== Sys2Proof/Proofs/Tick/Events.lean ====
section
/-! SUPPORT. The event that each sub-step of a tick has for the queue (45_tick_scheduler.md R259): at most one, of which kind
and under which identifier; and what the sub-step leaves besides. -/

namespace Sys2Proof.Machine

/-! ### The event of a position -/

/-- The event that the sub-step at the position of `s` has for the queue; a full queue drops it (42_event_queue.md R192). -/
def State.tickEvent (s : State) : Option Event :=
  match s.tphase with
  | .wait => none
  | .t0Sample => none
  | .t1Phase => none
  | .t2Decode k => Fin.cases s.vfoEvent s.encEvent k
  | .t3Scan => s.scanMove.2
  | .t4Led => none

section
variable {s : State}

theorem State.tickEvent_wait (pos : s.tphase = .wait) : s.tickEvent = none := by
  simp only [State.tickEvent, pos]

theorem State.tickEvent_t0Sample (pos : s.tphase = .t0Sample) : s.tickEvent = none := by
  simp only [State.tickEvent, pos]

theorem State.tickEvent_t1Phase (pos : s.tphase = .t1Phase) : s.tickEvent = none := by
  simp only [State.tickEvent, pos]

theorem State.tickEvent_vfo (pos : s.tphase = .t2Decode 0) : s.tickEvent = s.vfoEvent := by
  simp only [State.tickEvent, pos, Fin.cases_zero]

theorem State.tickEvent_encoder {ch : Fin 10} (pos : s.tphase = .t2Decode ch.succ) : s.tickEvent = s.encEvent ch := by
  simp only [State.tickEvent, pos, Fin.cases_succ]

theorem State.tickEvent_t3Scan (pos : s.tphase = .t3Scan) : s.tickEvent = s.scanMove.2 := by
  simp only [State.tickEvent, pos]

theorem State.tickEvent_t4Led (pos : s.tphase = .t4Led) : s.tickEvent = none := by
  simp only [State.tickEvent, pos]

end

/-! ### Its kind and identifier -/

/-- The VFO service has VFOStep events only (40_quadrature.md R129). -/
theorem State.vfoEvent_kind {s : State} : ∀ e ∈ s.vfoEvent, e.kind = 1 := by
  intro e he
  unfold State.vfoEvent at he
  split at he <;> cases he
  rfl

/-- An EncoderStep event under the identifier that `encShift` selects for the channel (40_quadrature.md R128). -/
def Event.IsEncoderStep (c : Config) (encShift : Bool) (ch : Fin 10) (e : Event) : Prop :=
  e.kind = 2 ∧ e.data.extractLsb' 4 4 = BitVec.ofNat 4 (if encShift then c.encIdMap[1][ch] else c.encIdMap[0][ch])

/-- The identifier is in the payload's upper half (30_encoding.md R102). -/
theorem encStepData_id (id : Nat) (steps : Int) : (encStepData id steps).extractLsb' 4 4 = BitVec.ofNat 4 id :=
  BitVec.extractLsb'_append_eq_left

/-- An encoder service has EncoderStep events of its channel only (40_quadrature.md R127). -/
theorem State.encEvent_isEncoderStep {s : State} {ch : Fin 10} :
    ∀ e ∈ s.encEvent ch, e.IsEncoderStep s.cfg s.scan.encShift ch := by
  intro e he
  unfold State.encEvent at he
  split at he <;> cases he
  exact ⟨rfl, (encStepData_id _ _).trans (by rw [encoderId_eq_ite])⟩

/-- The scan step has button events only (41_scan_sequencer.md R174). -/
theorem State.scanMove_kind {s : State} : ∀ e ∈ s.scanMove.2, 3 ≤ e.kind.toNat ∧ e.kind.toNat ≤ 5 := by
  intro e he
  obtain ⟨kind, hlo, hhi, hreport⟩ := (scanArm_iff.mpr rfl : ScanArm _ _ _ s.scanMove.1 s.scanMove.2).event_eq_some he
  obtain ⟨-, -, rfl, -⟩ := Scanner.report_some hreport
  exact ⟨hlo, hhi⟩

/-! ### What a sub-step appends, and what it leaves -/

/-- An event offered to the queue is appended or dropped (42_event_queue.md R192). -/
theorem State.emitOpt_appends (s : State) (o : Option Event) :
    ∃ a : Option Event, (∀ e ∈ a, e ∈ o) ∧ (s.emitOpt o).queue.contents = s.queue.contents ++ a.toList := by
  cases o with
  | none => exact ⟨none, nofun, by simp⟩
  | some e =>
    obtain hfull | ⟨hcontents, -⟩ := s.queue.push_contents_cases e
    · exact ⟨none, nofun, by simp [hfull]⟩
    · exact ⟨some e, fun _ he => he, hcontents⟩

/-- A sub-step appends the event of its position, or nothing. -/
theorem TickMove.appends {s t : State} (h : TickMove s t) :
    ∃ a : Option Event, (∀ e ∈ a, e ∈ s.tickEvent) ∧ t.queue.contents = s.queue.contents ++ a.toList := by
  cases h with
  | timer | sample | phase | led => exact ⟨none, nofun, by simp⟩
  | vfo pos =>
    rw [State.tickEvent_vfo pos]
    simpa using (s.gatherVfo.consume chanV (-128) 127).2.emitOpt_appends s.vfoEvent
  | encoder ch pos =>
    rw [State.tickEvent_encoder pos]
    simpa using (s.consume (ordinary ch) (-8) 7).2.emitOpt_appends (s.encEvent ch)
  | scan pos =>
    rw [State.tickEvent_t3Scan pos]
    simpa using (s.setScan s.scanMove.1).emitOpt_appends s.scanMove.2

@[simp] theorem State.gatherVfo_world (s : State) : s.gatherVfo.world = s.world := by
  unfold State.gatherVfo; split <;> rfl

/-- No sub-step schedules an act (log 1). -/
theorem TickMove.inbox {s t : State} (h : TickMove s t) : t.world.inbox = s.world.inbox := by
  cases h with
  | timer | sample | phase | vfo | encoder | scan | led => simp

theorem TickMove.tphase_next {s t : State} {p : TPhase} (h : TickMove s t) (pos : s.tphase = p) :
    t.tphase = nextTphase p :=
  h.tphase.trans (congrArg nextTphase pos)

theorem TickMove.cfg {s t : State} (h : TickMove s t) : t.cfg = s.cfg := by
  cases h with
  | timer | sample | phase | vfo | encoder | scan | led => simp

/-- Only T3 moves the sequencer (45_tick_scheduler.md R255). -/
theorem TickMove.scan_eq {s t : State} (h : TickMove s t) (hpos : s.tphase ≠ .t3Scan) : t.scan = s.scan := by
  cases h with
  | scan pos => exact absurd pos hpos
  | timer | sample | phase | vfo | encoder | led => simp

end Sys2Proof.Machine
end

