-- ==== Sys2Proof/Proofs/Tick/Runs.lean ====
section
/-! SUPPORT. A whole tick with no other agent's act scheduled (45_tick_scheduler.md R258, R259; log 1): one step after the other
from `WAIT`, with the events appended so far. -/

namespace Sys2Proof.Machine

/-! ### One step more -/

theorem core_run_of_step {k : Nat} {s t : State} (h : step s = .next t) :
    Sys2Proof.core.run (k + 1) s = Sys2Proof.core.run k t := by
  have hcore : Sys2Proof.core.step s = .next t := h
  simp only [Host.Core.run, hcore]

theorem core_run_of_refused {k : Nat} {s : State} {r : Refusal} (h : step s = .refused r) :
    Sys2Proof.core.run (k + 1) s = .refused r := by
  have hcore : Sys2Proof.core.step s = .refused r := h
  simp only [Host.Core.run, hcore]

/-- A run of `k` steps and one step more. -/
theorem core_run_succ {k : Nat} {s t u : State} (hrun : Sys2Proof.core.run k s = .next t) (hstep : step t = .next u) :
    Sys2Proof.core.run (k + 1) s = .next u := by
  induction k generalizing s with
  | zero =>
    cases hrun
    exact core_run_of_step hstep
  | succ k ih =>
    cases hfirst : step s with
    | next v =>
      rw [core_run_of_step hfirst] at hrun ⊢
      exact ih hrun
    | fault r => cases r
    | refused r => cases (core_run_of_refused hfirst).symm.trans hrun

/-- The tick agent's step always completes. -/
theorem exists_step_of_tickTurn {s : State} (turn : s.tickTurn) : ∃ t, step s = .next t := by
  obtain ⟨hwait, hsample, hvfo, hencoder, hscan, hled⟩ := tickStepRunsItsSubStep s _ turn rfl
  cases pos : s.tphase with
  | wait => exact ⟨_, hwait pos⟩
  | t0Sample =>
    obtain ⟨t, -, hstep⟩ := hsample pos
    exact ⟨_, hstep⟩
  | t1Phase => exact ⟨_, step_t1Phase turn pos⟩
  | t2Decode k =>
    cases k using Fin.cases with
    | zero =>
      obtain ⟨t, -, hstep⟩ := hvfo pos
      exact ⟨_, hstep⟩
    | succ ch =>
      obtain ⟨t, -, hstep⟩ := hencoder ch pos
      exact ⟨_, hstep⟩
  | t3Scan =>
    obtain ⟨t, -, hstep⟩ := hscan pos
    exact ⟨_, hstep⟩
  | t4Led =>
    obtain ⟨t, -, hstep⟩ := hled pos
    exact ⟨_, hstep⟩

theorem State.popInbox_of_nil {s : State} (h : s.world.inbox = []) : s.popInbox = s := by
  have htail : s.world.inbox.tail = s.world.inbox := by rw [h]; rfl
  rw [State.popInbox, htail]
  rfl

/-- With no act scheduled, the step is a move of the tick agent (log 1). -/
theorem exists_tickMove {s : State} (h : s.world.inbox = []) : ∃ t, step s = .next t ∧ TickMove s t := by
  obtain ⟨t, hstep⟩ := exists_step_of_tickTurn (.inl h)
  cases step_move hstep with
  | tick _ sub => exact ⟨t, hstep, s.popInbox_of_nil h ▸ sub⟩
  | select _ _ _ act | ledWrite _ _ _ _ act | readIdent _ _ _ act | readEvent _ _ act | readOther _ _ _ act
  | edgeCounted _ _ _ act | edgeIgnored _ _ _ act | powerOn _ act => cases h.symm.trans act

/-! ### Runs of the tick agent -/

/-- `k` steps from `s` lead to `t`, with no act scheduled there either, and append `es` to the events held. -/
structure TickRun (s : State) (k : Nat) (t : State) (es : List Event) : Prop where
  run      : Sys2Proof.core.run k s = .next t
  inbox    : t.world.inbox = []
  cfg      : t.cfg = s.cfg
  contents : t.queue.contents = s.queue.contents ++ es

theorem TickRun.refl {s : State} (h : s.world.inbox = []) : TickRun s 0 s [] :=
  ⟨rfl, h, rfl, (List.append_nil _).symm⟩

section
variable {s t : State} {k : Nat} {es : List Event}

/-- One more step appends the event of its position, or nothing. -/
theorem TickRun.step (h : TickRun s k t es) :
    ∃ (u : State) (a : Option Event), TickMove t u ∧ (∀ e ∈ a, e ∈ t.tickEvent) ∧
      TickRun s (k + 1) u (es ++ a.toList) := by
  obtain ⟨u, hstep, hmove⟩ := exists_tickMove h.inbox
  obtain ⟨a, hoffered, happend⟩ := hmove.appends
  exact ⟨u, a, hmove, hoffered,
    { run := core_run_succ h.run hstep
      inbox := hmove.inbox.trans h.inbox
      cfg := hmove.cfg.trans h.cfg
      contents := by rw [happend, h.contents, List.append_assoc] }⟩

/-- One more step at a position that has no event. -/
theorem TickRun.step_silent (h : TickRun s k t es) (hsilent : t.tickEvent = none) :
    ∃ u, TickMove t u ∧ TickRun s (k + 1) u es := by
  obtain ⟨u, a, hmove, hoffered, hrun⟩ := h.step
  have hnone : a = none := Option.eq_none_iff_forall_not_mem.mpr fun e he => by simpa [hsilent] using hoffered e he
  rw [hnone, Option.toList_none, List.append_nil] at hrun
  exact ⟨u, hmove, hrun⟩

/-! ### The parts of a tick -/

/-- From `WAIT`, three silent steps lead to `T2_DECODE(0)` (45_tick_scheduler.md R250 to R253). -/
theorem TickRun.sampled (h : TickRun s k t es) (pos : t.tphase = .wait) :
    ∃ u, TickRun s (k + 3) u es ∧ u.tphase = .t2Decode 0 ∧ u.scan = t.scan := by
  obtain ⟨u, moveU, runU⟩ := h.step_silent (State.tickEvent_wait pos)
  have posU : u.tphase = .t0Sample := moveU.tphase_next pos
  obtain ⟨v, moveV, runV⟩ := runU.step_silent (State.tickEvent_t0Sample posU)
  have posV : v.tphase = .t1Phase := moveV.tphase_next posU
  obtain ⟨w, moveW, runW⟩ := runV.step_silent (State.tickEvent_t1Phase posV)
  have posW : w.tphase = .t2Decode 0 := moveW.tphase_next posV
  refine ⟨w, runW, posW, ?_⟩
  calc w.scan = v.scan := moveW.scan_eq (by simp [posV])
    _ = u.scan := moveV.scan_eq (by simp [posU])
    _ = t.scan := moveU.scan_eq (by simp [pos])

/-- The VFO service appends at most one event, a VFOStep (45_tick_scheduler.md R254). -/
theorem TickRun.vfoServed (h : TickRun s k t es) (pos : t.tphase = .t2Decode 0) :
    ∃ (u : State) (a : Option Event), TickRun s (k + 1) u (es ++ a.toList) ∧ u.tphase = afterDecode 0 ∧
      u.scan = t.scan ∧ ∀ e ∈ a, e.kind = 1 := by
  obtain ⟨u, a, hmove, hoffered, hrun⟩ := h.step
  rw [State.tickEvent_vfo pos] at hoffered
  exact ⟨u, a, hrun, hmove.tphase_next pos, hmove.scan_eq (by simp [pos]),
    fun e he => State.vfoEvent_kind e (hoffered e he)⟩

/-- One encoder service appends at most one event, an EncoderStep of its channel (45_tick_scheduler.md R254). -/
theorem TickRun.encoderServed {ch : Fin 10} (h : TickRun s k t es) (pos : t.tphase = .t2Decode ch.succ) :
    ∃ (u : State) (a : Option Event), TickRun s (k + 1) u (es ++ a.toList) ∧ u.tphase = afterDecode ch.succ ∧
      u.scan = t.scan ∧ ∀ e ∈ a, e.IsEncoderStep s.cfg t.scan.encShift ch := by
  obtain ⟨u, a, hmove, hoffered, hrun⟩ := h.step
  rw [State.tickEvent_encoder pos] at hoffered
  exact ⟨u, a, hrun, hmove.tphase_next pos, hmove.scan_eq (by simp [pos]),
    fun e he => h.cfg ▸ State.encEvent_isEncoderStep e (hoffered e he)⟩

/-- The scan step appends at most one event, a button event, and the LED sub-step none (45_tick_scheduler.md R255, R256). -/
theorem TickRun.scanned (h : TickRun s k t es) (pos : t.tphase = .t3Scan) :
    ∃ (u : State) (a : Option Event), TickRun s (k + 2) u (es ++ a.toList) ∧ u.tphase = .wait ∧
      ∀ e ∈ a, 3 ≤ e.kind.toNat ∧ e.kind.toNat ≤ 5 := by
  obtain ⟨u, a, moveU, hoffered, runU⟩ := h.step
  rw [State.tickEvent_t3Scan pos] at hoffered
  have posU : u.tphase = .t4Led := moveU.tphase_next pos
  obtain ⟨v, moveV, runV⟩ := runU.step_silent (State.tickEvent_t4Led posU)
  exact ⟨v, a, runV, moveV.tphase_next posU, fun e he => State.scanMove_kind e (hoffered e he)⟩

end

/-! ### The encoder services in a row -/

/-- `es` are EncoderStep events of the channels `chs`, one for each, in ascending order and all below `n`. -/
structure EncoderSteps (c : Config) (encShift : Bool) (n : Nat) (chs : List (Fin 10)) (es : List Event) : Prop where
  ascending : chs.Pairwise (· < ·)
  below     : ∀ ch ∈ chs, ch.val < n
  events    : List.Forall₂ (Event.IsEncoderStep c encShift) chs es

theorem EncoderSteps.nil (c : Config) (encShift : Bool) : EncoderSteps c encShift 0 [] [] :=
  ⟨.nil, nofun, .nil⟩

/-- The service of channel `n` appends its event behind those of the channels below. -/
theorem EncoderSteps.snoc {c : Config} {encShift : Bool} {ch : Fin 10} {chs : List (Fin 10)} {es : List Event}
    {a : Option Event} (h : EncoderSteps c encShift ch.val chs es) (ha : ∀ e ∈ a, e.IsEncoderStep c encShift ch) :
    ∃ chs', EncoderSteps c encShift (ch.val + 1) chs' (es ++ a.toList) := by
  have hbelow : ∀ x ∈ chs, x.val < ch.val + 1 := fun x hx => (h.below x hx).trans (Nat.lt_succ_self _)
  cases a with
  | none => exact ⟨chs, h.ascending, hbelow, by simpa using h.events⟩
  | some e =>
    refine ⟨chs ++ [ch], ?_, ?_, List.rel_append h.events (.cons (ha e rfl) .nil)⟩
    · exact List.pairwise_append.mpr ⟨h.ascending, List.pairwise_singleton _ _, by simpa using h.below⟩
    · simpa [or_imp, forall_and] using hbelow

/-- At most one event for each of the ten channels (45_tick_scheduler.md R258). -/
theorem EncoderSteps.length_le {c : Config} {encShift : Bool} {n : Nat} {chs : List (Fin 10)} {es : List Event}
    (h : EncoderSteps c encShift n chs es) : es.length ≤ 10 := by
  have hnodup : chs.Nodup := h.ascending.imp ne_of_lt
  rw [← h.events.length_eq]
  simpa using hnodup.length_le_card

/-- After the VFO service, `n` steps serve the first `n` ordinary channels in ascending order (45_tick_scheduler.md R254). -/
theorem TickRun.encodersServed {s t : State} {k : Nat} {vs : List Event} (h : TickRun s k t vs)
    (pos : t.tphase = afterDecode 0) {n : Nat} (hn : n < 11) :
    ∃ u chs es, TickRun s (k + n) u (vs ++ es) ∧ u.tphase = afterDecode ⟨n, hn⟩ ∧ u.scan = t.scan ∧
      EncoderSteps s.cfg t.scan.encShift n chs es := by
  induction n with
  | zero => exact ⟨t, [], [], by simpa using h, pos, rfl, .nil s.cfg t.scan.encShift⟩
  | succ n ih =>
    obtain ⟨u, chs, es, hrun, hpos, hscan, hsteps⟩ := ih (by omega)
    have hpos' : u.tphase = .t2Decode (Fin.succ ⟨n, by omega⟩) := hpos.trans (dif_pos hn)
    obtain ⟨v, a, hrun', hposV, hscanV, ha⟩ := hrun.encoderServed hpos'
    rw [hscan] at ha
    obtain ⟨chs', hsteps'⟩ := hsteps.snoc ha
    exact ⟨v, chs', es ++ a.toList, by rwa [← List.append_assoc], hposV, hscanV.trans hscan, hsteps'⟩

/-! ### The whole tick -/

/-- A tick is sixteen steps from `WAIT` to `WAIT`: three silent ones, the VFO service, the ten encoder services, the scan step
and the LED sub-step (45_tick_scheduler.md R251, R259). -/
theorem exists_tickRun {s : State} (h : s.world.inbox = []) (pos : s.tphase = .wait) :
    ∃ (t : State) (a b : Option Event) (chs : List (Fin 10)) (es : List Event),
      TickRun s 16 t (a.toList ++ es ++ b.toList) ∧ t.tphase = .wait ∧ (∀ e ∈ a, e.kind = 1) ∧
      EncoderSteps s.cfg s.scan.encShift 10 chs es ∧ ∀ e ∈ b, 3 ≤ e.kind.toNat ∧ e.kind.toNat ≤ 5 := by
  obtain ⟨t, runT, posT, scanT⟩ := (TickRun.refl h).sampled pos
  obtain ⟨u, a, runU, posU, scanU, hvfo⟩ := runT.vfoServed posT
  obtain ⟨v, chs, es, runV, posV, -, hsteps⟩ := runU.encodersServed posU (n := 10) (by omega)
  obtain ⟨w, b, runW, posW, hbutton⟩ := runV.scanned posV
  rw [scanU, scanT] at hsteps
  exact ⟨w, a, b, chs, es, runW, posW, hvfo, hsteps, hbutton⟩

end Sys2Proof.Machine
end

