-- ==== Sys2Proof/Proofs/Tick/Settled.lean ====
section
/-! PROOFS. The statements on a whole tick (45_tick_scheduler.md R258, R259), settled. -/

namespace Sys2Proof.Machine

/-- Settles O59: the events of the tick's run, part by part. -/
theorem eventsOfATickComeInOrder : Obligations.EventsOfATickComeInOrder := by
  intro s h pos
  obtain ⟨t, a, b, chs, es, hrun, -, hvfo, hsteps, hbutton⟩ := exists_tickRun h pos
  refine ⟨t, a.toList, es, b.toList, chs, hrun.run, ?_, Option.length_toList_le, ?_, hsteps.ascending, hsteps.events,
    Option.length_toList_le, ?_⟩
  · rw [hrun.contents, List.append_assoc, List.append_assoc, List.append_assoc]
  · simpa using hvfo
  · simpa using hbutton

/-- Settles O46: one event of the VFO service, one for each of the ten channels, and one of the scan step, at most. -/
theorem everyTickCompletesWithAtMostTwelveEvents : Obligations.EveryTickCompletesWithAtMostTwelveEvents := by
  intro s h pos
  obtain ⟨t, a, b, chs, es, hrun, hwait, -, hsteps, -⟩ := exists_tickRun h pos
  refine ⟨t, _, hrun.run, hwait, hrun.contents, ?_⟩
  have hvfo : a.toList.length ≤ 1 := Option.length_toList_le
  have hbutton : b.toList.length ≤ 1 := Option.length_toList_le
  have hencoders : es.length ≤ 10 := hsteps.length_le
  rw [List.length_append, List.length_append]
  omega

end Sys2Proof.Machine
end

