-- ==== Sys2Proof/Proofs/Exceptions/Transactions.lean ====
section
/-! SUPPORT. What a VFO edge and a bus transaction touch (60_exceptions.md R280): a decoded transaction always completes, and it
neither reads nor writes the quadrature decoder; an edge writes the decoder, and reads only it and the configuration. -/

namespace Sys2Proof.Machine

/-! ### Bus transactions -/

/-- The operation completes, leaves the decoder, and does the same beside any other decoder state. -/
def IgnoresDecoder (i : Instr) (s : State) : Prop :=
  ∃ t, exec i s = .next t ∧ t.dec = s.dec ∧ ∀ d, exec i (s.setDec d) = .next (t.setDec d)

/-- A write touches the register interface only (44_bus_protocol.md R221). -/
theorem ignoresDecoder_of_decode_write {m : RegMap} {b : List Byte} {i : Instr} (h : decode m (.write b) = .ok i)
    (s : State) : IgnoresDecoder i s := by
  match b with
  | [] => cases h
  | [b0] =>
    cases h
    exact ⟨_, exec_busWrSel b0 s, rfl, fun d => exec_busWrSel b0 (s.setDec d)⟩
  | [b0, b1] =>
    cases h
    exact ⟨_, exec_busWrShort b0 b1 s, rfl, fun d => exec_busWrShort b0 b1 (s.setDec d)⟩
  | b0 :: lo :: hi :: rest =>
    by_cases hled : b0 = m.led
    · subst hled
      cases (decode_write_led m lo hi rest).symm.trans h
      exact ⟨_, exec_busWrLed lo hi rest s, rfl, fun d => exec_busWrLed lo hi rest (s.setDec d)⟩
    · cases (decode_write_other hled lo hi rest).symm.trans h
      exact ⟨_, exec_busWrIgnored b0 lo hi rest s, rfl, fun d => exec_busWrIgnored b0 lo hi rest (s.setDec d)⟩

/-- A read that answers the same word and queue beside any decoder state ignores the decoder (44_bus_protocol.md R228). -/
theorem ignoresDecoder_of_busRead {i : Instr} {n : Nat} {w : Word} {q : Queue} {s : State} (hn : n ≠ 0)
    (h : exec i s = busRead n w q s) (hd : ∀ d, exec i (s.setDec d) = busRead n w q (s.setDec d)) :
    IgnoresDecoder i s :=
  ⟨_, h.trans (busRead_of_ne_zero hn w q s), rfl, fun d => (hd d).trans (busRead_of_ne_zero hn w q (s.setDec d))⟩

/-- No register's word or queue comes from the decoder (44_bus_protocol.md R224 to R229). -/
theorem ignoresDecoder_readOperation (m : RegMap) (sel : Byte) {n : Nat} (hn : n ≠ 0) (s : State) :
    IgnoresDecoder (readOperation m sel n) s := by
  unfold readOperation
  split_ifs
  · exact ignoresDecoder_of_busRead hn (exec_busRdId n s) fun d => exec_busRdId n (s.setDec d)
  · exact ignoresDecoder_of_busRead hn (exec_busRdHw n s) fun d => exec_busRdHw n (s.setDec d)
  · exact ignoresDecoder_of_busRead hn (exec_busRdLed n s) fun d => exec_busRdLed n (s.setDec d)
  · exact ignoresDecoder_of_busRead hn (exec_busRdEvent n s) fun d => exec_busRdEvent n (s.setDec d)
  · exact ignoresDecoder_of_busRead hn (exec_busRdUndef sel n s) fun d => exec_busRdUndef sel n (s.setDec d)

/-- Every decoded transaction completes and ignores the decoder (60_exceptions.md R270, R280). -/
theorem ignoresDecoder_of_decode {m : RegMap} {f : Frame} {i : Instr} (h : decode m f = .ok i) (s : State) :
    IgnoresDecoder i s := by
  cases f with
  | write b => exact ignoresDecoder_of_decode_write h s
  | read sel n =>
    by_cases hn : n = 0
    · subst hn
      cases h
    · cases (decode_read sel hn).symm.trans h
      exact ignoresDecoder_readOperation m sel hn s

/-- The step of a transaction that decodes completes (60_exceptions.md R270). -/
theorem exists_step_of_decode {s : State} {f : Frame} {i : Instr} (hf : fetch s = fetchFrame s f)
    (h : decode s.cfg.regMap f = .ok i) : ∃ t, step s = .next t := by
  obtain ⟨t, ht, -⟩ := ignoresDecoder_of_decode h s.popInbox
  exact ⟨t, (step_of_fetch_single (hf.trans (fetchFrame_of_decode h))).trans ht⟩

/-! ### VFO edges -/

/-- An edge writes the decoder alone, the same one in every state with this configuration and decoder
(40_quadrature.md R130, R131). -/
theorem exists_exec_vfoEdge (a b : Bool) (s : State) :
    ∃ d, ∀ t : State, t.cfg = s.cfg → t.dec = s.dec → exec (.vfoEdge a b) t = .next (t.setDec d) := by
  cases hm : s.cfg.vfoMode with
  | edge =>
    refine ⟨s.dec.countEdge s.cfg a b, fun t hcfg hdec => ?_⟩
    rw [exec_vfoEdge_edge (hcfg ▸ hm), hcfg, hdec]
  | polled =>
    refine ⟨s.dec, fun t hcfg hdec => ?_⟩
    rw [exec_vfoEdge_polled (hcfg ▸ hm), ← hdec]
    rfl

end Sys2Proof.Machine
end

