-- ==== Sys2Proof/Proofs/Exceptions/Settled.lean ====
section
/-! PROOFS. The statements of 60_exceptions.md's family, settled. -/

namespace Sys2Proof.Machine

/-- Settles O47: by the next act; the hypotheses rule out exactly the acts that the decoder or RESET refuses (R275). -/
theorem stepsCompleteOnAdmittedInputs : Obligations.StepsCompleteOnAdmittedInputs := by
  intro s hwrite hread hpower
  cases act : s.world.inbox with
  | nil => exact exists_step_of_tickTurn (.inl act)
  | cons a acts =>
    cases a with
    | tick => exact exists_step_of_tickTurn (.inr (by rw [act]; rfl))
    | write b =>
      cases b with
      | nil => exact absurd act (hwrite acts)
      | cons b0 bs =>
        obtain ⟨i, hi⟩ := exists_decode_write_cons s.cfg.regMap b0 bs
        exact exists_step_of_decode (fetch_write act) hi
    | read n =>
      have hn : n ≠ 0 := by
        rintro rfl
        exact hread acts act
      exact exists_step_of_decode (fetch_read act) (decode_read s.bus.regsel hn)
    | edge a b =>
      obtain ⟨d, hd⟩ := exists_exec_vfoEdge a b s.popInbox
      exact ⟨_, (step_of_fetch_single (fetch_edge act)).trans (hd s.popInbox rfl rfl)⟩
    | powerOn =>
      obtain ⟨t, ht⟩ := execReset_legal (s := s.popInbox) (hpower acts act)
      exact ⟨t, (step_of_fetch_single (fetch_powerOn act)).trans ht⟩

/-- Settles O52: the transaction leaves what the edge reads, and ignores what the edge writes. -/
theorem edgesAndTransactionsCommute : Obligations.EdgesAndTransactionsCommute := by
  intro s a b f i h
  obtain ⟨t, ht, hdec, hbeside⟩ := ignoresDecoder_of_decode h s
  obtain ⟨d, hedge⟩ := exists_exec_vfoEdge a b s
  calc runOps [.vfoEdge a b, i] s
      = runOps [i] (s.setDec d) := runOps_cons_next (hedge s rfl rfl) _
    _ = .next (t.setDec d) := (runOps_singleton i _).trans (hbeside d)
    _ = runOps [.vfoEdge a b] t := ((runOps_singleton _ t).trans (hedge t (exec_cfg ht) hdec)).symm
    _ = runOps [i, .vfoEdge a b] s := (runOps_cons_next ht _).symm

end Sys2Proof.Machine
end

