-- ==== Sys2Proof/Proofs/Reset/PowerOn.lean ====
section
/-! SUPPORT. What RESET answers under a legal configuration, and the phase samples it leaves in `prev`
(70_reset_and_hazards.md R300, R302). -/

namespace Sys2Proof.Machine

/-- RESET is the power-on state wherever it is not refused (70_reset_and_hazards.md R300). -/
theorem exec_reset_legal {s : State} (h : ConfigLegal s.cfg) : exec .reset s = .next s.poweredOn :=
  if_pos ((configOk_iff s.cfg).mpr h)

/-- A polled channel takes its new sample: an ordinary channel in both modes, channel V in `POLLED` mode
(40_quadrature.md R120). -/
theorem pickPolled_of_polled {c : Config} {ch : Chan} (h : ch ≠ chanV ∨ c.vfoMode = .polled)
    (new old : Vector Phase numChan) : (pickPolled c new old)[ch] = new[ch] := by
  cases ch using Fin.lastCases with
  | last =>
    have hm : c.vfoMode = .polled := h.resolve_left fun hne => hne rfl
    rw [pickPolled_polled c new old hm]
  | cast ch => exact pickPolled_ordinary c new old ch

/-- RESET sets a polled channel's previous sample to the channel's phase levels (70_reset_and_hazards.md R302). -/
theorem Decoder.afterReset_prev {c : Config} {ch : Chan} (h : ch ≠ chanV ∨ c.vfoMode = .polled) (d : Decoder)
    (r : Reading) : (d.afterReset c r).prev[ch] = r.phase[ch] :=
  pickPolled_of_polled h r.phase d.prev

/-- RESET clears every accumulator (70_reset_and_hazards.md R300). -/
theorem Decoder.afterReset_acc (d : Decoder) (c : Config) (r : Reading) (ch : Chan) : (d.afterReset c r).acc[ch] = 0 :=
  Vector.getElem_replicate ch.isLt

/-- RESET empties every slot (70_reset_and_hazards.md R300). -/
theorem resetQueue_slot (i : Fin 16) : resetQueue.slot[i] = { kind := 0, data := 0 } :=
  Vector.getElem_replicate i.isLt

end Sys2Proof.Machine
end

