-- ==== Sys2Proof/Proofs/Reset/Settled.lean ====
section
/-! PROOFS. The statement on RESET's whole effect (70_reset_and_hazards.md R300, R302), settled. -/

namespace Sys2Proof.Machine

/-- Settles O56: RESET answers the power-on state, whose `prev` holds the next reading, supplied or free, on the polled
channels. -/
theorem resetBringsTheInitialState : Obligations.ResetBringsTheInitialState := by
  intro s hLegal
  refine ⟨s.poweredOn, exec_reset_legal hLegal, rfl, Decoder.afterReset_acc _ _ _, rfl, fun ch hPolled => ?_, rfl,
    resetQueue_slot, rfl, rfl, rfl, rfl, rfl, rfl⟩
  have hPrev : s.poweredOn.dec.prev[ch] = s.world.reading.phase[ch] := Decoder.afterReset_prev hPolled ..
  cases hReadings : s.world.readings with
  | nil =>
    rw [hPrev, World.reading_free _ hReadings]
    exact freeReading_phase s.world.draws ch
  | cons r rs => rw [hPrev, World.reading_supplied _ hReadings]

end Sys2Proof.Machine
end
